-- ==== Sys2Proof/Word.lean ====
section
/-! DEFINITION. The two value types of the block: a byte and a 16-bit word (00_scope.md R7).
Both wrap (R8): `a +8 b` is `+` on `Byte`, `a +16 b` is `+` on `Addr`. -/

namespace Sys2Proof

/-- A byte, 0 to 255, unsigned (R7). -/
abbrev Byte := BitVec 8

/-- A 16-bit word, 0 to 65535, unsigned: an address, a program counter, a word operand (R7). -/
abbrev Addr := BitVec 16

end Sys2Proof
end

