-- ==== Sys2Proof/Config.lean ====
section
/-! DEFINITION. What is fixed for the block (00_scope.md R6), and the values the spec leaves open. -/

namespace Sys2Proof

/-- `MEM_SIZE` (R6, R33): every 16-bit address exists. -/
def Config.memSize : Nat := 65536

/-- `ORIGIN` (R6): where the loader copies a program. -/
def Config.origin : Addr := 0x8000#16

/-- `RESET_VECTOR` (R6): the address of the vector's low byte. -/
def Config.resetVector : Addr := 0xFFFC#16

/-- The longest program `load_program` takes (R242, D13). -/
def Config.maxProgramLength : Nat := 0x8000

/-- FREE VALUE (DESIGN CHOICE, log entry 1, safe): what memory holds at power-on, the parameter
`initial_memory` of R37 and D5 in its reading "any value": a claim holds whatever it is. -/
opaque Config.initialMemory : Addr → Byte

/-- FREE VALUE (DESIGN CHOICE, log entry 4, safe): A at power-on, before any reset (R37). -/
opaque Config.powerOnA : Byte

/-- FREE VALUE (log entry 4): X at power-on (R37). -/
opaque Config.powerOnX : Byte

/-- FREE VALUE (log entry 4): Y at power-on (R37). -/
opaque Config.powerOnY : Byte

/-- FREE VALUE (log entry 4): P at power-on (R37). -/
opaque Config.powerOnP : Byte

/-- FREE VALUE (log entry 4): PC at power-on (R37). -/
opaque Config.powerOnPc : Addr

end Sys2Proof
end

