-- ==== Sys2Proof/Syntax.lean ====
section
/-! DEFINITION. The instructions as syntax: mnemonics, addressing-mode tags, formats, the rows of the opcode
table, and `Instr`, one constructor per row of spec/opcode_table.json. -/

namespace Sys2Proof

/-- The five mnemonics (R2). -/
inductive Mnemonic where
  | brk | tax | inx | lda | sta
deriving DecidableEq, Repr

/-- The closed set of ten addressing-mode tags (R2, R60 to R70). -/
inductive Mode where
  | noneAddressing
  | immediate
  | zeroPage
  | zeroPageX
  | zeroPageY
  | absolute
  | absoluteX
  | absoluteY
  | indirectX
  | indirectY
deriving DecidableEq, Repr

/-- The three instruction formats (R91, R92, R93). -/
inductive Format where
  | implied
  | byteOperand
  | wordOperand
deriving DecidableEq, Repr

/-- The encoded length of a format: the opcode byte and 0, 1 or 2 operand bytes (R90 to R93). -/
def Format.len : Format → Nat
  | .implied => 1
  | .byteOperand => 2
  | .wordOperand => 3

/-- The format a mode is used with (R91, R92, R93). -/
def Mode.format : Mode → Format
  | .noneAddressing => .implied
  | .immediate => .byteOperand
  | .zeroPage => .byteOperand
  | .zeroPageX => .byteOperand
  | .zeroPageY => .byteOperand
  | .absolute => .wordOperand
  | .absoluteX => .wordOperand
  | .absoluteY => .wordOperand
  | .indirectX => .byteOperand
  | .indirectY => .byteOperand

/-- One row of the opcode table: the fields `OPCODES[op]` has (R95, R103). -/
structure Row where
  opcode : Byte
  mnemonic : Mnemonic
  len : Nat
  format : Format
  mode : Mode
deriving DecidableEq, Repr

/-- One constructor per row of the opcode table (R95), with the operand its format carries (R91 to R94). -/
inductive Instr where
  /-- 0x00 (R180). -/
  | brk
  /-- 0xAA (R170). -/
  | tax
  /-- 0xE8 (R171). -/
  | inx
  /-- 0xA9 (R131). -/
  | ldaImmediate (imm8 : Byte)
  /-- 0xA5 (R132). -/
  | ldaZeroPage (zp : Byte)
  /-- 0xB5 (R133). -/
  | ldaZeroPageX (zp : Byte)
  /-- 0xAD (R134). -/
  | ldaAbsolute (addr16 : Addr)
  /-- 0xBD (R135). -/
  | ldaAbsoluteX (addr16 : Addr)
  /-- 0xB9 (R136). -/
  | ldaAbsoluteY (addr16 : Addr)
  /-- 0xA1 (R137). -/
  | ldaIndirectX (base : Byte)
  /-- 0xB1 (R138). -/
  | ldaIndirectY (base : Byte)
  /-- 0x85 (R151). -/
  | staZeroPage (zp : Byte)
  /-- 0x95 (R152). -/
  | staZeroPageX (zp : Byte)
  /-- 0x8D (R153). -/
  | staAbsolute (addr16 : Addr)
  /-- 0x9D (R154). -/
  | staAbsoluteX (addr16 : Addr)
  /-- 0x99 (R155). -/
  | staAbsoluteY (addr16 : Addr)
  /-- 0x81 (R156). -/
  | staIndirectX (base : Byte)
  /-- 0x91 (R157). -/
  | staIndirectY (base : Byte)
deriving DecidableEq, Repr

/-- The handler group of an instruction (R95). -/
def Instr.mnemonic : Instr → Mnemonic
  | .brk => .brk
  | .tax => .tax
  | .inx => .inx
  | .ldaImmediate _ => .lda
  | .ldaZeroPage _ => .lda
  | .ldaZeroPageX _ => .lda
  | .ldaAbsolute _ => .lda
  | .ldaAbsoluteX _ => .lda
  | .ldaAbsoluteY _ => .lda
  | .ldaIndirectX _ => .lda
  | .ldaIndirectY _ => .lda
  | .staZeroPage _ => .sta
  | .staZeroPageX _ => .sta
  | .staAbsolute _ => .sta
  | .staAbsoluteX _ => .sta
  | .staAbsoluteY _ => .sta
  | .staIndirectX _ => .sta
  | .staIndirectY _ => .sta

/-- The addressing mode of an instruction (R95). -/
def Instr.mode : Instr → Mode
  | .brk => .noneAddressing
  | .tax => .noneAddressing
  | .inx => .noneAddressing
  | .ldaImmediate _ => .immediate
  | .ldaZeroPage _ => .zeroPage
  | .ldaZeroPageX _ => .zeroPageX
  | .ldaAbsolute _ => .absolute
  | .ldaAbsoluteX _ => .absoluteX
  | .ldaAbsoluteY _ => .absoluteY
  | .ldaIndirectX _ => .indirectX
  | .ldaIndirectY _ => .indirectY
  | .staZeroPage _ => .zeroPage
  | .staZeroPageX _ => .zeroPageX
  | .staAbsolute _ => .absolute
  | .staAbsoluteX _ => .absoluteX
  | .staAbsoluteY _ => .absoluteY
  | .staIndirectX _ => .indirectX
  | .staIndirectY _ => .indirectY

end Sys2Proof
end

