-- ==== Sys2Proof/WellFormed.lean ====
section
/-! DEFINITION. What a row of an opcode table must satisfy for the engine to dispatch it correctly. An `Instr`
carries operands of exactly the width its format has (R94: any operand value is legal), so every term of `Instr` is
well formed; the checks bite on rows, where a mnemonic, a mode, a format and a length are put together. -/

namespace Sys2Proof

/-- A memory-referencing handler (LDA, STA) has a mode that names memory (R70, R103). -/
def Row.referencesMemory (r : Row) : Bool :=
  match r.mnemonic with
  | .brk => r.mode == .noneAddressing
  | .tax => r.mode == .noneAddressing
  | .inx => r.mode == .noneAddressing
  | .lda => r.mode != .noneAddressing
  | .sta => r.mode != .noneAddressing

/-- There is no STA Immediate (R95, R150). -/
def Row.storesOutsideImmediate (r : Row) : Bool :=
  r.mnemonic != .sta || r.mode != .immediate

/-- No opcode uses ZeroPage_Y (R64, I14). -/
def Row.modeHasAnOpcode (r : Row) : Bool :=
  r.mode != .zeroPageY

/-- The format is the mode's (R91, R92, R93). -/
def Row.formatOfMode (r : Row) : Bool :=
  r.format == r.mode.format

/-- The length is the format's (R90). -/
def Row.lengthOfFormat (r : Row) : Bool :=
  r.len == r.format.len

/-- All five checks of a row. -/
def Row.wellFormed (r : Row) : Bool :=
  r.referencesMemory && r.storesOutsideImmediate && r.modeHasAnOpcode && r.formatOfMode && r.lengthOfFormat

end Sys2Proof
end

