-- ==== Sys2Proof/Decode.lean ====
section
/-! DEFINITION. The opcode table (R95), the decoder, by lookup of the whole opcode byte (R96), and after it the
encoder. The byte order of an operand word is decided here, once (R54, R93). -/

namespace Sys2Proof

/-- `hi ++ lo`: the word of a low and a high byte (R7, R54). -/
def wordOf (lo hi : Byte) : Addr :=
  hi ++ lo

/-- `w[7:0]` (R7). -/
def lowByte (w : Addr) : Byte :=
  w.extractLsb' 0 8

/-- `w[15:8]` (R7). -/
def highByte (w : Addr) : Byte :=
  w.extractLsb' 8 8

/-- The three rows of the break, transfer and increment handlers (R95). -/
def impliedRows : List Row := [
  ⟨0x00#8, .brk, 1, .implied, .noneAddressing⟩,
  ⟨0xAA#8, .tax, 1, .implied, .noneAddressing⟩,
  ⟨0xE8#8, .inx, 1, .implied, .noneAddressing⟩]

/-- The eight LDA rows (R95). -/
def loadRows : List Row := [
  ⟨0xA9#8, .lda, 2, .byteOperand, .immediate⟩,
  ⟨0xA5#8, .lda, 2, .byteOperand, .zeroPage⟩,
  ⟨0xB5#8, .lda, 2, .byteOperand, .zeroPageX⟩,
  ⟨0xAD#8, .lda, 3, .wordOperand, .absolute⟩,
  ⟨0xBD#8, .lda, 3, .wordOperand, .absoluteX⟩,
  ⟨0xB9#8, .lda, 3, .wordOperand, .absoluteY⟩,
  ⟨0xA1#8, .lda, 2, .byteOperand, .indirectX⟩,
  ⟨0xB1#8, .lda, 2, .byteOperand, .indirectY⟩]

/-- The seven STA rows (R95). DEDUCED by the spec: which opcode has which mode is read from the order of the bytes
in the source's one flattened row (log entry 9, unsafe). -/
def storeRows : List Row := [
  ⟨0x85#8, .sta, 2, .byteOperand, .zeroPage⟩,
  ⟨0x95#8, .sta, 2, .byteOperand, .zeroPageX⟩,
  ⟨0x8D#8, .sta, 3, .wordOperand, .absolute⟩,
  ⟨0x9D#8, .sta, 3, .wordOperand, .absoluteX⟩,
  ⟨0x99#8, .sta, 3, .wordOperand, .absoluteY⟩,
  ⟨0x81#8, .sta, 2, .byteOperand, .indirectX⟩,
  ⟨0x91#8, .sta, 2, .byteOperand, .indirectY⟩]

/-- The opcode table `OPCODES`: exactly 18 rows (R95), a constant of the step (R99). -/
def opcodeTable : List Row :=
  impliedRows ++ loadRows ++ storeRows

/-- `OPCODES[op]`, none for an undefined byte (R96, R97). -/
def lookup (op : Byte) : Option Row :=
  opcodeTable.find? fun r => r.opcode == op

/-- Why bytes are no instruction. -/
inductive DecodeError where
  /-- There is no byte at all. -/
  | noBytes
  /-- The opcode byte is none of the 18 (R97). -/
  | undefinedOpcode (op : Byte)
  /-- The bytes end before the last operand byte of this defined opcode. The engine's fetch never meets it. -/
  | operandMissing (op : Byte)
deriving DecidableEq, Repr

/-- The instruction a handler, a mode and the bytes after the opcode make, with the bytes left over (R91 to R94). -/
def assemble (mn : Mnemonic) (mode : Mode) (bytes : List Byte) : Option (Instr × List Byte) :=
  match mn, mode, bytes with
  | .brk, .noneAddressing, rest => some (.brk, rest)
  | .tax, .noneAddressing, rest => some (.tax, rest)
  | .inx, .noneAddressing, rest => some (.inx, rest)
  | .lda, .immediate, b :: rest => some (.ldaImmediate b, rest)
  | .lda, .zeroPage, b :: rest => some (.ldaZeroPage b, rest)
  | .lda, .zeroPageX, b :: rest => some (.ldaZeroPageX b, rest)
  | .lda, .absolute, lo :: hi :: rest => some (.ldaAbsolute (wordOf lo hi), rest)
  | .lda, .absoluteX, lo :: hi :: rest => some (.ldaAbsoluteX (wordOf lo hi), rest)
  | .lda, .absoluteY, lo :: hi :: rest => some (.ldaAbsoluteY (wordOf lo hi), rest)
  | .lda, .indirectX, b :: rest => some (.ldaIndirectX b, rest)
  | .lda, .indirectY, b :: rest => some (.ldaIndirectY b, rest)
  | .sta, .zeroPage, b :: rest => some (.staZeroPage b, rest)
  | .sta, .zeroPageX, b :: rest => some (.staZeroPageX b, rest)
  | .sta, .absolute, lo :: hi :: rest => some (.staAbsolute (wordOf lo hi), rest)
  | .sta, .absoluteX, lo :: hi :: rest => some (.staAbsoluteX (wordOf lo hi), rest)
  | .sta, .absoluteY, lo :: hi :: rest => some (.staAbsoluteY (wordOf lo hi), rest)
  | .sta, .indirectX, b :: rest => some (.staIndirectX b, rest)
  | .sta, .indirectY, b :: rest => some (.staIndirectY b, rest)
  | _, _, _ => none

/-- Decode one instruction from the front of a list of bytes: table lookup on the whole first byte (R96), then the
operand bytes; the answer holds the bytes left over. Total: what is no instruction is rejected by name. -/
def decode (bytes : List Byte) : Except DecodeError (Instr × List Byte) :=
  match bytes with
  | [] => .error .noBytes
  | op :: rest =>
    match lookup op with
    | none => .error (.undefinedOpcode op)
    | some row =>
      match assemble row.mnemonic row.mode rest with
      | none => .error (.operandMissing op)
      | some r => .ok r

/-- The encoded length in bytes (R90). -/
def Instr.len (i : Instr) : Nat :=
  i.mode.format.len

/-- The bytes of an instruction, lowest address first (R91, R92, R93, R95). -/
def encode (i : Instr) : List Byte :=
  match i with
  | .brk => [0x00#8]
  | .tax => [0xAA#8]
  | .inx => [0xE8#8]
  | .ldaImmediate b => [0xA9#8, b]
  | .ldaZeroPage b => [0xA5#8, b]
  | .ldaZeroPageX b => [0xB5#8, b]
  | .ldaAbsolute w => [0xAD#8, lowByte w, highByte w]
  | .ldaAbsoluteX w => [0xBD#8, lowByte w, highByte w]
  | .ldaAbsoluteY w => [0xB9#8, lowByte w, highByte w]
  | .ldaIndirectX b => [0xA1#8, b]
  | .ldaIndirectY b => [0xB1#8, b]
  | .staZeroPage b => [0x85#8, b]
  | .staZeroPageX b => [0x95#8, b]
  | .staAbsolute w => [0x8D#8, lowByte w, highByte w]
  | .staAbsoluteX w => [0x9D#8, lowByte w, highByte w]
  | .staAbsoluteY w => [0x99#8, lowByte w, highByte w]
  | .staIndirectX b => [0x81#8, b]
  | .staIndirectY b => [0x91#8, b]

/-- The bytes of a table word: bit 0 of `w` is the least significant bit of the first byte, a later byte's bits
count on from it, and the bits from `nbits` up are 0. Three bytes, the longest instruction's. -/
def tableWordBytes (nbits w : Nat) : List Byte :=
  let v := w % 2 ^ nbits
  [BitVec.ofNat 8 v, BitVec.ofNat 8 (v / 256), BitVec.ofNat 8 (v / 65536)]

/-- What the decoder reads from an instruction given as a table word. -/
def decodeTableWord (nbits w : Nat) : Option Instr :=
  match decode (tableWordBytes nbits w) with
  | .ok (i, _) => some i
  | .error _ => none

end Sys2Proof
end

