-- ==== Sys2Proof/Machine/Flags.lean ====
section
/-! DEFINITION. The status flag unit (10_state.md R25 to R28): the only flag computation of the block. -/

namespace Sys2Proof.Machine

/-- Z, bit 1 of P (R25). -/
def flagZ (p : Byte) : Bool :=
  p.getLsbD 1

/-- N, bit 7 of P (R25). -/
def flagN (p : Byte) : Bool :=
  p.getLsbD 7

/-- A flag as a byte, 0 or 1. -/
def bitOf (b : Bool) : Byte :=
  if b then 1#8 else 0#8

/-- `update_flags(r)`: the new P for result `r` and old `p`. Only bits 1 and 7 are written: the mask
0x7D, binary 0111_1101, keeps bits 0 and 2 to 6 (R27). -/
def updateFlags (r p : Byte) : Byte :=
  (p &&& 0x7D#8) ||| (bitOf (r == 0x00#8) <<< 1) ||| (bitOf (r.getLsbD 7) <<< 7)

end Sys2Proof.Machine
end

