-- ==== Sys2Proof/Machine/State.lean ====
section
/-! DEFINITION. The state of the block, as plain data (10_state.md R20), the reasons a step can stop, and the two
named states: after reset and at power-on. -/

namespace Sys2Proof.Machine

/-- Memory: the bytes written since power-on, as (address, byte) pairs with strictly rising addresses. An address
that is not listed has not been written, and reads as the free value `Config.initialMemory` (R37, D5; log entries
1 and 2). -/
abbrev Memory := List Host.Cell

/-- The canonical form: addresses strictly rising, all inside the address space (R33). Unwritten is the one thing an
unlisted address stands for, and no entry says it, so equal memories are equal lists (log entry 2). -/
abbrev Memory.wf (m : Memory) : Prop :=
  m.Pairwise (fun c d => c.1 < d.1) ∧ ∀ c ∈ m, c.1 < Config.memSize

/-- Which event an Idle engine is idle since (R34: "no halt since the last reset or power-on"). `run()` asks (R244). -/
inductive IdleSince where
  | powerOn
  | reset
deriving DecidableEq, Repr

/-- `run_state` (R34). The two failure states hold their recorded info (R201, R202), so it exists exactly while the
engine is in that state (DESIGN CHOICE, log entry 8, safe). -/
inductive RunState where
  /-- Not running, and no halt since the last reset or power-on. -/
  | idle (since : IdleSince)
  /-- The fetch-decode-execute loop is active. -/
  | running
  /-- The loop ended by dispatching BRK. -/
  | haltedNormal
  /-- The loop ended by a decode failure: the fetched byte and the fetch address (R202). -/
  | haltedError (opcode : Byte) (fetchAddr : Addr)
  /-- Addressing-mode misuse: the opcode byte and pcb (R70, R203). No opcode reaches it. -/
  | faulted (opcode : Byte) (pcb : Addr)
deriving DecidableEq, Repr

/-- The whole architectural state (R20); there is no other (R35). -/
structure State where
  /-- Accumulator (R21). -/
  a : Byte
  /-- Index X (R22). -/
  x : Byte
  /-- Index Y (R23). -/
  y : Byte
  /-- Status register (R25). -/
  p : Byte
  /-- Program counter (R30). -/
  pc : Addr
  /-- Memory (R33). -/
  mem : Memory
  /-- Run state (R34). -/
  runState : RunState
deriving DecidableEq, Repr

/-- Why the engine has no step because an earlier one ended the run in failure (R100, R217). The step that FAILS is a
next state, with the effect R102 gives it; these name what a further step meets. -/
inductive Fault where
  /-- The run ended by a decode failure (R201 code 1). Raised by `step` in HaltedError. Safe: it stops. -/
  | decodeFailure (opcode : Byte) (fetchAddr : Addr)
  /-- The run ended by addressing-mode misuse (R201 code 2). Raised by `step` in Faulted. Safe: it stops. -/
  | resolverMisuse (opcode : Byte) (pcb : Addr)
deriving DecidableEq, Repr

/-- Why an operation is refused. -/
inductive Refusal where
  /-- An instruction that has no meaning yet. No arm of `exec` raises it. Safe: it stops. -/
  | notModelled (mnemonic : String)
  /-- `step` of an Idle engine: the engine has no step (R100). Safe: it stops. -/
  | engineIdle
  /-- `step` after BRK: the run ended cleanly and the engine has no step (R100, R217). Safe: it stops. -/
  | engineHalted
  /-- A host operation while Running: the host has no move (R245). Safe: it stops. -/
  | hostWhileRunning
  /-- `run()` with no reset since power-on (R37, R244). Safe: it stops. -/
  | noResetSincePowerOn
  /-- `load_program` of more than 0x8000 bytes (R242, D13). Safe: it stops. -/
  | programTooLong (length : Nat)
deriving DecidableEq, Repr

/-- The machine right after reset (R36, R240). The spec gives A, X, Y, P and Idle. PC is what the word at 0xFFFC holds
at reset time: here the loader's 0x8000 (DESIGN CHOICE, log entry 3, unsafe). Memory lists nothing. -/
def State.reset : State where
  a := 0x00#8
  x := 0x00#8
  y := 0x00#8
  p := 0x00#8
  pc := 0x8000#16
  mem := []
  runState := .idle .reset

/-- The machine at power-on, before any reset (R37): the registers hold free values that nothing reads, since `run()`
is refused (log entry 4). -/
def State.powerOn : State where
  a := Config.powerOnA
  x := Config.powerOnX
  y := Config.powerOnY
  p := Config.powerOnP
  pc := Config.powerOnPc
  mem := []
  runState := .idle .powerOn

end Sys2Proof.Machine
end

