-- ==== Sys2Proof/Machine/Ops.lean ====
section
/-! DEFINITION. The named operations over memory and registers that every meaning is written in, the one operation
that ends a run (the block has no trap entry, 60_exceptions.md R200), and the fetch and PC advance around a handler. -/

namespace Sys2Proof.Machine

/-! ### Memory -/

/-- The entry of address `a`, none if it has not been written. -/
def Memory.find : Memory → Nat → Option Byte
  | [], _ => none
  | c :: m, a => if c.1 = a then some c.2 else Memory.find m a

/-- `m` with byte `v` at address `a`, in the canonical form. -/
def Memory.write : Memory → Nat → Byte → Memory
  | [], a, v => [(a, v)]
  | c :: m, a, v =>
    if a < c.1 then (a, v) :: c :: m
    else if a = c.1 then (a, v) :: m
    else c :: Memory.write m a v

/-- What an address that is not listed reads as: the power-on byte, a free value (R37, D5; log entry 1). -/
def Memory.unlisted (a : Addr) : Byte :=
  Config.initialMemory a

/-- `M[a]` (R50): the byte last written, or the power-on byte (R71). -/
def Memory.read (m : Memory) (a : Addr) : Byte :=
  match Memory.find m a.toNat with
  | some v => v
  | none => Memory.unlisted a

/-- `MemRead(a, 2)` (R52): low byte at `a`, high byte at `a +16 1`. -/
def Memory.readWord (m : Memory) (a : Addr) : Addr :=
  wordOf (m.read a) (m.read (a + 1#16))

/-- `MemRead(a, 1)` of the machine (R50). -/
def State.readByte (s : State) (a : Addr) : Byte :=
  s.mem.read a

/-- `MemRead(a, 2)` of the machine (R52). -/
def State.readWord (s : State) (a : Addr) : Addr :=
  s.mem.readWord a

/-- `MemWrite(a, 1, v)` (R51): nothing else changes. -/
def State.writeByte (s : State) (a : Addr) (v : Byte) : State :=
  { s with mem := s.mem.write a.toNat v }

/-- `MemWrite(a, 2, w)` (R53): the low byte at `a`, then the high byte at `a +16 1`. -/
def State.writeWord (s : State) (a w : Addr) : State :=
  (s.writeByte a (lowByte w)).writeByte (a + 1#16) (highByte w)

/-- The loader's copy (R242): `MemWrite(a +16 i, 1, bytes[i])` for each i in order. -/
def State.writeBytes (s : State) (a : Addr) : List Byte → State
  | [] => s
  | b :: bs => (s.writeByte a b).writeBytes (a + 1#16) bs

/-! ### Registers -/

/-- `x[A] <- v; update_flags(v)` (R130). -/
def State.loadAccumulator (s : State) (v : Byte) : State :=
  { s with a := v, p := updateFlags v s.p }

/-- `x[X] <- v; update_flags(x[X])` (R170, R171). -/
def State.loadX (s : State) (v : Byte) : State :=
  { s with x := v, p := updateFlags v s.p }

/-- `pc <- target` (R9). -/
def State.setPc (s : State) (target : Addr) : State :=
  { s with pc := target }

/-- The rest of LDA once the effective address is known (R130). -/
def State.loadFrom (s : State) (ea : Addr) : State :=
  s.loadAccumulator (s.readByte ea)

/-- The rest of STA once the effective address is known (R150): no flag changes. -/
def State.storeTo (s : State) (ea : Addr) : State :=
  s.writeByte ea s.a

/-! ### Ending a run -/

/-- `halt <State>` (R9): the only thing that happens to the engine in place of a trap (R200, R207). Nothing is saved, no
vector is read, no mode changes. The way back is the host's `run()` (R208). -/
def State.endRun (s : State) (r : RunState) : State :=
  { s with runState := r }

/-- Decode failure (R102, R202) of opcode byte `op`, with PC already at pcb: HaltedError, recording `op` and
pcb −16 1. That PC stays at pcb is the spec's decision D7 (log entry 10, unsafe). -/
def State.decodeFailure (s : State) (op : Byte) : State :=
  s.endRun (.haltedError op (s.pc - 1#16))

/-- Addressing-mode misuse (R70, R203), with PC at pcb: Faulted, recording the opcode byte and pcb. No memory access, no
sentinel address (the spec's decision D8, log entry 11). -/
def State.resolverMisuse (s : State) (op : Byte) : State :=
  s.endRun (.faulted op s.pc)

/-! ### Fetch and PC advance -/

/-- The opcode byte and the two bytes after it, with `+16` wrap (R90, R101). A read has no side effect (R57), so reading
a byte the instruction does not have changes nothing. -/
def State.fetchBytes (s : State) : List Byte :=
  [s.readByte s.pc, s.readByte (s.pc + 1#16), s.readByte (s.pc + 2#16)]

/-- The state a handler runs in: PC moved past the opcode byte, so PC = pcb (R101, R104). -/
def State.atPcb (s : State) : State :=
  s.setPc (s.pc + 1#16)

/-- PC advance after a handler (R105): past the operand bytes, unless the handler moved PC. -/
def State.advance (s : State) (pcb : Addr) (len : Nat) : State :=
  if s.pc = pcb then s.setPc (pcb + BitVec.ofNat 16 (len - 1)) else s

/-! ### Placing an instruction -/

/-- `s` Running, with the bytes of a table word stored at PC. -/
def State.placeWord (s : State) (nbits w : Nat) : State :=
  (s.writeBytes s.pc (tableWordBytes nbits w)).endRun .running

end Sys2Proof.Machine
end

