-- ==== Sys2Proof/Machine/Break.lean ====
section
/-! DEFINITION. The break handler (43_break.md). A meaning runs with PC = pcb (R104); `step` advances PC after it. -/

namespace Sys2Proof.Machine

/-- BRK (R180): the run ends as HaltedNormal, and nothing else changes. -/
def execBrk (s : State) : Host.Outcome State Fault Refusal :=
  .next (s.endRun .haltedNormal)

end Sys2Proof.Machine
end

