-- ==== Sys2Proof/Machine/Operands.lean ====
section
/-! DEFINITION. The effective address of every operand form (20_memory.md R61 to R69), and the resolver itself (R60, R70),
which finds the operand bytes at PC and applies them. -/

namespace Sys2Proof.Machine

/-- `zext_16` (R7). -/
def zext16 (b : Byte) : Addr :=
  b.setWidth 16

/-- ZeroPage (R62). -/
def eaZeroPage (zp : Byte) : Addr :=
  zext16 zp

/-- ZeroPage_X and ZeroPage_Y: the sum wraps inside page zero (R63, R64). -/
def eaZeroPageIndexed (zp index : Byte) : Addr :=
  zext16 (zp + index)

/-- Absolute (R65). -/
def eaAbsolute (addr16 : Addr) : Addr :=
  addr16

/-- Absolute_X and Absolute_Y: the sum wraps at 16 bits (R66, R67). -/
def eaAbsoluteIndexed (addr16 : Addr) (index : Byte) : Addr :=
  addr16 + zext16 index

/-- The word a zero-page pointer holds; both its bytes lie in page zero (R68). For Indirect_Y with base 0xFF this is the
spec's decision D6 (R69; log entry 12, unsafe). -/
def zeroPagePointer (m : Memory) (ptr : Byte) : Addr :=
  wordOf (m.read (zext16 ptr)) (m.read (zext16 (ptr + 1#8)))

/-- Indirect_X: index, then dereference (R68). -/
def eaIndirectX (m : Memory) (base x : Byte) : Addr :=
  zeroPagePointer m (base + x)

/-- Indirect_Y: dereference, then index (R69). -/
def eaIndirectY (m : Memory) (base y : Byte) : Addr :=
  zeroPagePointer m base + zext16 y

/-- `resolve(mode, pc, reg_x, reg_y)` (R60): the effective address, with the operand bytes read at `pc`; none for
NoneAddressing, which names no memory (R70). It writes no state and does not move PC. -/
def resolve (mode : Mode) (m : Memory) (pc : Addr) (x y : Byte) : Option Addr :=
  match mode with
  | .noneAddressing => none
  | .immediate => some pc
  | .zeroPage => some (eaZeroPage (m.read pc))
  | .zeroPageX => some (eaZeroPageIndexed (m.read pc) x)
  | .zeroPageY => some (eaZeroPageIndexed (m.read pc) y)
  | .absolute => some (eaAbsolute (m.readWord pc))
  | .absoluteX => some (eaAbsoluteIndexed (m.readWord pc) x)
  | .absoluteY => some (eaAbsoluteIndexed (m.readWord pc) y)
  | .indirectX => some (eaIndirectX m (m.read pc) x)
  | .indirectY => some (eaIndirectY m (m.read pc) y)

end Sys2Proof.Machine
end

