-- ==== Sys2Proof/Machine/Load.lean ====
section
/-! DEFINITION. The load-accumulator handlers (40_load.md): the effective address of the form, then R130. The operand is
the one decoded from the bytes at PC, which is what the resolver reads there (R75; log entry 7). -/

namespace Sys2Proof.Machine

/-- LDA Immediate (R131): the operand byte is the data. -/
def execLdaImmediate (imm8 : Byte) (s : State) : Host.Outcome State Fault Refusal :=
  .next (s.loadAccumulator imm8)

/-- LDA ZeroPage (R132). -/
def execLdaZeroPage (zp : Byte) (s : State) : Host.Outcome State Fault Refusal :=
  .next (s.loadFrom (eaZeroPage zp))

/-- LDA ZeroPage_X (R133). -/
def execLdaZeroPageX (zp : Byte) (s : State) : Host.Outcome State Fault Refusal :=
  .next (s.loadFrom (eaZeroPageIndexed zp s.x))

/-- LDA Absolute (R134). -/
def execLdaAbsolute (addr16 : Addr) (s : State) : Host.Outcome State Fault Refusal :=
  .next (s.loadFrom (eaAbsolute addr16))

/-- LDA Absolute_X (R135). -/
def execLdaAbsoluteX (addr16 : Addr) (s : State) : Host.Outcome State Fault Refusal :=
  .next (s.loadFrom (eaAbsoluteIndexed addr16 s.x))

/-- LDA Absolute_Y (R136). -/
def execLdaAbsoluteY (addr16 : Addr) (s : State) : Host.Outcome State Fault Refusal :=
  .next (s.loadFrom (eaAbsoluteIndexed addr16 s.y))

/-- LDA Indirect_X (R137). -/
def execLdaIndirectX (base : Byte) (s : State) : Host.Outcome State Fault Refusal :=
  .next (s.loadFrom (eaIndirectX s.mem base s.x))

/-- LDA Indirect_Y (R138). -/
def execLdaIndirectY (base : Byte) (s : State) : Host.Outcome State Fault Refusal :=
  .next (s.loadFrom (eaIndirectY s.mem base s.y))

end Sys2Proof.Machine
end

