-- ==== Sys2Proof/Machine/Store.lean ====
section
/-! DEFINITION. The store-accumulator handlers (41_store.md): the effective address of the form, then the one byte
written (R150). Every operand and pointer read comes before the write (R75). No flag changes. -/

namespace Sys2Proof.Machine

/-- STA ZeroPage (R151). -/
def execStaZeroPage (zp : Byte) (s : State) : Host.Outcome State Fault Refusal :=
  .next (s.storeTo (eaZeroPage zp))

/-- STA ZeroPage_X (R152). -/
def execStaZeroPageX (zp : Byte) (s : State) : Host.Outcome State Fault Refusal :=
  .next (s.storeTo (eaZeroPageIndexed zp s.x))

/-- STA Absolute (R153). -/
def execStaAbsolute (addr16 : Addr) (s : State) : Host.Outcome State Fault Refusal :=
  .next (s.storeTo (eaAbsolute addr16))

/-- STA Absolute_X (R154). -/
def execStaAbsoluteX (addr16 : Addr) (s : State) : Host.Outcome State Fault Refusal :=
  .next (s.storeTo (eaAbsoluteIndexed addr16 s.x))

/-- STA Absolute_Y (R155). -/
def execStaAbsoluteY (addr16 : Addr) (s : State) : Host.Outcome State Fault Refusal :=
  .next (s.storeTo (eaAbsoluteIndexed addr16 s.y))

/-- STA Indirect_X (R156). -/
def execStaIndirectX (base : Byte) (s : State) : Host.Outcome State Fault Refusal :=
  .next (s.storeTo (eaIndirectX s.mem base s.x))

/-- STA Indirect_Y (R157). -/
def execStaIndirectY (base : Byte) (s : State) : Host.Outcome State Fault Refusal :=
  .next (s.storeTo (eaIndirectY s.mem base s.y))

end Sys2Proof.Machine
end

