-- ==== Sys2Proof/Machine/Transfer.lean ====
section
/-! DEFINITION. The transfer and increment handlers (42_transfer_increment.md). -/

namespace Sys2Proof.Machine

/-- TAX (R170). -/
def execTax (s : State) : Host.Outcome State Fault Refusal :=
  .next (s.loadX s.a)

/-- INX (R171): 8-bit wraparound. -/
def execInx (s : State) : Host.Outcome State Fault Refusal :=
  .next (s.loadX (s.x + 1#8))

end Sys2Proof.Machine
end

