-- ==== Sys2Proof/Machine/Dispatch.lean ====
section
/-! DEFINITION. Dispatch (30_encoding.md R103): one arm per constructor of `Instr`. -/

namespace Sys2Proof.Machine

def exec (i : Instr) (s : State) : Host.Outcome State Fault Refusal :=
  match i with
  | .brk => Sys2Proof.Machine.execBrk s
  | .tax => Sys2Proof.Machine.execTax s
  | .inx => Sys2Proof.Machine.execInx s
  | .ldaImmediate imm8 => Sys2Proof.Machine.execLdaImmediate imm8 s
  | .ldaZeroPage zp => Sys2Proof.Machine.execLdaZeroPage zp s
  | .ldaZeroPageX zp => Sys2Proof.Machine.execLdaZeroPageX zp s
  | .ldaAbsolute addr16 => Sys2Proof.Machine.execLdaAbsolute addr16 s
  | .ldaAbsoluteX addr16 => Sys2Proof.Machine.execLdaAbsoluteX addr16 s
  | .ldaAbsoluteY addr16 => Sys2Proof.Machine.execLdaAbsoluteY addr16 s
  | .ldaIndirectX base => Sys2Proof.Machine.execLdaIndirectX base s
  | .ldaIndirectY base => Sys2Proof.Machine.execLdaIndirectY base s
  | .staZeroPage zp => Sys2Proof.Machine.execStaZeroPage zp s
  | .staZeroPageX zp => Sys2Proof.Machine.execStaZeroPageX zp s
  | .staAbsolute addr16 => Sys2Proof.Machine.execStaAbsolute addr16 s
  | .staAbsoluteX addr16 => Sys2Proof.Machine.execStaAbsoluteX addr16 s
  | .staAbsoluteY addr16 => Sys2Proof.Machine.execStaAbsoluteY addr16 s
  | .staIndirectX base => Sys2Proof.Machine.execStaIndirectX base s
  | .staIndirectY base => Sys2Proof.Machine.execStaIndirectY base s

end Sys2Proof.Machine
end

