-- ==== Sys2Proof/Machine/Step.lean ====
section
/-! DEFINITION. One step of the engine (30_encoding.md R100 to R107): fetch, decode, run the handler with PC = pcb, advance
PC. Machine/Engine.lean states the same step the way R107 writes it. -/

namespace Sys2Proof.Machine

/-- One step. It exists only while Running (R100); what a stopped engine answers is log entry 6. -/
def step (s : State) : Host.Outcome State Fault Refusal :=
  match s.runState with
  | .idle _ => .refused .engineIdle
  | .haltedNormal => .refused .engineHalted
  | .haltedError op at' => .fault (.decodeFailure op at')
  | .faulted op pcb => .fault (.resolverMisuse op pcb)
  | .running =>
    match decode s.fetchBytes with
    | .error _ => .next (s.atPcb.decodeFailure (s.readByte s.pc))
    | .ok (i, _) =>
      match exec i s.atPcb with
      | .next t => .next (t.advance s.atPcb.pc i.len)
      | .fault r => .fault r
      | .refused r => .refused r

/-- `s` made ready to run the instruction of a table word as its very next step: its bytes at PC, run_state Running. It
stands for the host's load and `run()` (log entry 5). -/
def State.withFetchWord (s : State) (nbits w : Nat) : State :=
  s.placeWord nbits w

end Sys2Proof.Machine
end

