-- ==== Sys2Proof/Machine/Engine.lean ====
section
/-! DEFINITION. The step as R107 writes it: opcode table, resolver reading the operand bytes at PC, handler group, PC
advance. `step` runs decoded instructions instead; that the two agree is an obligation. This form also holds what no
opcode reaches: a table row that pairs LDA or STA with NoneAddressing (R70). -/

namespace Sys2Proof.Machine

/-- How a handler ends: normally, so that R105 follows, or by `raise`, which ends the step (R9). -/
inductive HandlerEnd where
  | done (s : State)
  | raised (s : State)
deriving DecidableEq, Repr

/-- The handler groups of R103, run with PC = pcb (R104): `op` is the opcode byte that `resolve` reports (R70). -/
def runHandler (r : Row) (op : Byte) (s : State) : HandlerEnd :=
  match r.mnemonic with
  | .brk => .done (s.endRun .haltedNormal)
  | .lda =>
    match resolve r.mode s.mem s.pc s.x s.y with
    | some ea => .done (s.loadFrom ea)
    | none => .raised (s.resolverMisuse op)
  | .sta =>
    match resolve r.mode s.mem s.pc s.x s.y with
    | some ea => .done (s.storeTo ea)
    | none => .raised (s.resolverMisuse op)
  | .tax => .done (s.loadX s.a)
  | .inx => .done (s.loadX (s.x + 1#8))

/-- `step()` of R107 over an opcode table. It presumes run_state = Running. -/
def engineStep (table : Byte → Option Row) (s : State) : State :=
  let op := s.readByte s.pc
  let s1 := s.setPc (s.pc + 1#16)
  let pcb := s1.pc
  match table op with
  | none => s1.decodeFailure op
  | some e =>
    match runHandler e op s1 with
    | .raised t => t
    | .done t => t.advance pcb e.len

end Sys2Proof.Machine
end

