-- ==== Sys2Proof/Machine/HostPort.lean ====
section
/-! DEFINITION. The host control port (70_reset_and_hazards.md R240 to R245, 20_memory.md R77): what the outside can do to the
block. Each operation is allowed only when run_state is not Running (R245). -/

namespace Sys2Proof.Machine

/-- What `reset()` leaves (R240): registers and P zero, PC from the vector as memory holds it now, Idle. Memory is not
changed (D22, log entry 13). -/
def State.afterReset (s : State) : State :=
  { s with a := 0x00#8, x := 0x00#8, y := 0x00#8, p := 0x00#8,
           pc := s.readWord Config.resetVector, runState := .idle .reset }

/-- What `load_program(bytes)` leaves (R242): the bytes from the origin up, then the vector (D13, log entry 14). -/
def State.afterLoad (s : State) (bytes : List Byte) : State :=
  (s.writeBytes Config.origin bytes).writeWord Config.resetVector Config.origin

/-- A host operation's guard: no move while Running (R245). -/
def State.hostMove (s : State) (o : Host.Outcome State Fault Refusal) : Host.Outcome State Fault Refusal :=
  match s.runState with
  | .running => .refused .hostWhileRunning
  | .idle _ => o
  | .haltedNormal => o
  | .haltedError _ _ => o
  | .faulted _ _ => o

/-- `reset()` (R240). -/
def hostReset (s : State) : Host.Outcome State Fault Refusal :=
  s.hostMove (.next s.afterReset)

/-- `load_program(bytes)` (R242): a program over 0x8000 bytes is refused (D13). -/
def hostLoadProgram (bytes : List Byte) (s : State) : Host.Outcome State Fault Refusal :=
  s.hostMove (if bytes.length ≤ Config.maxProgramLength then .next (s.afterLoad bytes)
    else .refused (.programTooLong bytes.length))

/-- The start of `run()` (R244): Running, from the current PC and state, whatever the engine halted in (D16, log entry
15); refused if no reset has happened since power-on (R37). The loop itself is `loopState` of Machine/Run.lean. -/
def hostRun (s : State) : Host.Outcome State Fault Refusal :=
  match s.runState with
  | .running => .refused .hostWhileRunning
  | .idle .powerOn => .refused .noResetSincePowerOn
  | .idle .reset => .next (s.endRun .running)
  | .haltedNormal => .next (s.endRun .running)
  | .haltedError _ _ => .next (s.endRun .running)
  | .faulted _ _ => .next (s.endRun .running)

/-- `f` after `o`, where `o` ends in a next state. -/
def andThen (o : Host.Outcome State Fault Refusal) (f : State → Host.Outcome State Fault Refusal) :
    Host.Outcome State Fault Refusal :=
  match o with
  | .next s => f s
  | .fault r => .fault r
  | .refused r => .refused r

/-- `load_and_run(bytes, reset_flag)` up to the start of the loop (R243). -/
def hostLoadAndRun (bytes : List Byte) (resetFlag : Bool) (s : State) : Host.Outcome State Fault Refusal :=
  andThen (hostLoadProgram bytes s) fun s1 =>
    andThen (if resetFlag then hostReset s1 else .next s1) hostRun

/-- The host's `write_byte` (R77, R51). -/
def hostWriteByte (a : Addr) (v : Byte) (s : State) : Host.Outcome State Fault Refusal :=
  s.hostMove (.next (s.writeByte a v))

/-- The host's `write_word` (R77, R53). -/
def hostWriteWord (a w : Addr) (s : State) : Host.Outcome State Fault Refusal :=
  s.hostMove (.next (s.writeWord a w))

/-- The host's `read_byte` (R77, R50): no state changes. -/
def hostReadByte (a : Addr) (s : State) : Except Refusal Byte :=
  if s.runState = .running then .error .hostWhileRunning else .ok (s.readByte a)

/-- The host's `read_word` (R77, R52): no state changes. -/
def hostReadWord (a : Addr) (s : State) : Except Refusal Addr :=
  if s.runState = .running then .error .hostWhileRunning else .ok (s.readWord a)

/-- Every host operation that can change the state (R10 b, R245). None writes A, X, Y, P or PC directly (D14). -/
inductive HostOp where
  | reset
  | loadProgram (bytes : List Byte)
  | loadAndRun (bytes : List Byte) (resetFlag : Bool)
  | run
  | writeByte (a : Addr) (v : Byte)
  | writeWord (a w : Addr)
deriving DecidableEq, Repr

/-- What a host operation does. -/
def hostApply (op : HostOp) (s : State) : Host.Outcome State Fault Refusal :=
  match op with
  | .reset => hostReset s
  | .loadProgram bytes => hostLoadProgram bytes s
  | .loadAndRun bytes resetFlag => hostLoadAndRun bytes resetFlag s
  | .run => hostRun s
  | .writeByte a v => hostWriteByte a v s
  | .writeWord a w => hostWriteWord a w s

end Sys2Proof.Machine
end

