-- ==== Sys2Proof/Machine/Run.lean ====
section
/-! DEFINITION. The loop of `run()` (70_reset_and_hazards.md R244) and how a run ends (60_exceptions.md R201, R217). A run
may be infinite (R108): `loopState` looks at the loop after k rounds and never calls that final. -/

namespace Sys2Proof.Machine

/-- The three ends of a run, with their recorded info (R201). -/
inductive HaltKind where
  | break
  | decodeFailure (opcode : Byte) (fetchAddr : Addr)
  | resolverMisuse (opcode : Byte) (pcb : Addr)
deriving DecidableEq, Repr

/-- The spec's code of an end (R201, D18): a label, not a hardware value. -/
def HaltKind.code : HaltKind → Nat
  | .break => 0
  | .decodeFailure _ _ => 1
  | .resolverMisuse _ _ => 2

/-- The end a run state stands for; none for Idle and Running. -/
def RunState.haltKind : RunState → Option HaltKind
  | .idle _ => none
  | .running => none
  | .haltedNormal => some .break
  | .haltedError op at' => some (.decodeFailure op at')
  | .faulted op pcb => some (.resolverMisuse op pcb)

/-- The state after k rounds of `while run_state == Running: step()` (R244); once the loop is left, nothing changes. -/
def loopState : Nat → State → State
  | 0, s => s
  | k + 1, s =>
    match step s with
    | .next t => loopState k t
    | .fault _ => s
    | .refused _ => s

/-- The loop, started in `s`, is left in `t` (R244, R217). -/
def Completes (s t : State) : Prop :=
  ∃ k, loopState k s = t ∧ t.runState ≠ .running

/-- The loop, started in `s`, never leaves Running (R108, R217). -/
def Hangs (s : State) : Prop :=
  ∀ k, (loopState k s).runState = .running

end Sys2Proof.Machine
end

