-- ==== Sys2Proof/Safety.lean ====
section
/-! DEFINITION. What claims are made in: ends of a run (60_exceptions.md R217), the invariant of the block, and the states
the block can be in. -/

namespace Sys2Proof.Machine

/-- A clean end: HaltedNormal, and only that (R217). -/
def State.CleanEnd (s : State) : Prop :=
  s.runState = .haltedNormal

/-- A failed end: HaltedError or Faulted (R217). -/
def State.FailedEnd (s : State) : Prop :=
  (∃ op at', s.runState = .haltedError op at') ∨ ∃ op pcb, s.runState = .faulted op pcb

/-- No reset has happened since power-on (R37). -/
def State.BeforeFirstReset (s : State) : Prop :=
  s.runState = .idle .powerOn

/-- The invariant: memory is in its canonical form; the engine is never Faulted (R70); a recorded decode failure names an
undefined byte and the address before PC (R102); and from the first reset on Y is 0 (R23) and P is one of the three
values it can have (R26). -/
structure State.Inv (s : State) : Prop where
  memory : s.mem.wf
  notFaulted : ∀ op pcb, s.runState ≠ .faulted op pcb
  failInfo : ∀ op at', s.runState = .haltedError op at' → lookup op = none ∧ s.pc = at' + 1#16
  indexY : ¬ s.BeforeFirstReset → s.y = 0x00#8
  status : ¬ s.BeforeFirstReset → s.p = 0x00#8 ∨ s.p = 0x02#8 ∨ s.p = 0x80#8

/-- What `update_flags(r)` does to P, bit by bit (R25, R27): Z is 1 exactly when r is 0, N exactly when r is 0x80 or more
(bit 7), and every reserved bit keeps its value. -/
def FlagsFrom (r old new : Byte) : Prop :=
  (flagZ new = true ↔ r = 0x00#8) ∧ (flagN new = true ↔ 0x80 ≤ r.toNat) ∧
    ∀ i, i ≠ 1 → i ≠ 7 → new.getLsbD i = old.getLsbD i

/-- Every byte of memory reads as before. -/
def SameMemory (s t : State) : Prop :=
  ∀ a, t.readByte a = s.readByte a

/-- Address `a` reads as `v`, and every other byte of memory as before. -/
def StoredByte (a : Addr) (v : Byte) (s t : State) : Prop :=
  t.readByte a = v ∧ ∀ b, b ≠ a → t.readByte b = s.readByte b

/-- A load of `v` into A and its frame: flags from `v`; X, Y, memory and run state unchanged (R130). -/
def LoadEffect (v : Byte) (s t : State) : Prop :=
  t.a = v ∧ FlagsFrom v s.p t.p ∧ t.x = s.x ∧ t.y = s.y ∧ SameMemory s t ∧ t.runState = s.runState

/-- A new X of `v` and its frame: flags from `v`; A, Y, memory and run state unchanged (R170, R171). -/
def IndexEffect (v : Byte) (s t : State) : Prop :=
  t.x = v ∧ FlagsFrom v s.p t.p ∧ t.a = s.a ∧ t.y = s.y ∧ SameMemory s t ∧ t.runState = s.runState

/-- A store of A at `ea` and its frame: every other byte, A, X, Y, P and run state unchanged (R150). -/
def StoreEffect (ea : Addr) (s t : State) : Prop :=
  StoredByte ea s.a s t ∧ t.a = s.a ∧ t.x = s.x ∧ t.y = s.y ∧ t.p = s.p ∧ t.runState = s.runState

/-- Whenever the running engine fetches opcode `op`, its step loads A from the address `ea` gives in the state before the
step, and PC moves on by `len`. -/
def OpcodeLoads (op : Byte) (len : Nat) (ea : State → Addr) : Prop :=
  ∀ s : State, s.runState = .running → s.readByte s.pc = op →
    ∃ t, step s = .next t ∧ LoadEffect (s.readByte (ea s)) s t ∧ t.pc = s.pc + BitVec.ofNat 16 len

/-- Whenever the running engine fetches opcode `op`, its step stores A at the address `ea` gives in the state before the
step, and PC moves on by `len`. -/
def OpcodeStores (op : Byte) (len : Nat) (ea : State → Addr) : Prop :=
  ∀ s : State, s.runState = .running → s.readByte s.pc = op →
    ∃ t, step s = .next t ∧ StoreEffect (ea s) s t ∧ t.pc = s.pc + BitVec.ofNat 16 len

/-- The first operand byte of the instruction at PC. -/
def State.operandByte (s : State) : Byte :=
  s.readByte (s.pc + 1#16)

/-- The operand word of the instruction at PC, low byte first, with `+16` wrap (R93). -/
def State.operandWord (s : State) : Addr :=
  s.readByte (s.pc + 2#16) ++ s.readByte (s.pc + 1#16)

/-- The bytes of `i` stand in memory from PC up, with `+16` wrap (R90). -/
def State.holdsAtPc (s : State) (i : Instr) : Prop :=
  ∀ k b, (encode i)[k]? = some b → s.readByte (s.pc + BitVec.ofNat 16 k) = b

/-- The 18 opcode bytes of R95, written out. -/
def definedOpcodes : List Byte :=
  [0x00#8, 0xAA#8, 0xE8#8] ++
  [0xA9#8, 0xA5#8, 0xB5#8, 0xAD#8, 0xBD#8, 0xB9#8, 0xA1#8, 0xB1#8] ++
  [0x85#8, 0x95#8, 0x8D#8, 0x9D#8, 0x99#8, 0x81#8, 0x91#8]

/-- Two states that differ in P at most. -/
def SameButFlags (s t : State) : Prop :=
  t.a = s.a ∧ t.x = s.x ∧ t.y = s.y ∧ t.pc = s.pc ∧ t.mem = s.mem ∧ t.runState = s.runState

/-- The states the block can be in: power-on, then host operations and engine steps (R11). -/
inductive Reachable : State → Prop where
  | powerOn : Reachable State.powerOn
  | host (op : HostOp) {s t : State} : Reachable s → hostApply op s = .next t → Reachable t
  | engine {s t : State} : Reachable s → step s = .next t → Reachable t

end Sys2Proof.Machine
end

