-- ==== Sys2Proof/Certificates/Slice0/Obligations.lean ====
section
/-! DEFINITION. The statements for the provers. Each docstring says which rule of spec/ it formalises, and which clause of
it, if any, is a decision of the spec's or of the model's. -/

open Sys2Proof Sys2Proof.Machine

/-! ### Encoding -/

/-- Decoding the bytes of any instruction, whatever follows them, gives it back with every operand, and leaves what
follows (30_encoding.md R90 to R95). -/
def Obligations.DecodeOfEncodeGivesInstructionBack : Prop :=
  ∀ (i : Instr) (rest : List Byte), decode (encode i ++ rest) = .ok (i, rest)

/-- What decodes to an instruction is that instruction's encoding and the rest: every word has one meaning. -/
def Obligations.EncodeOfDecodeGivesBytesBack : Prop :=
  ∀ (bytes : List Byte) (i : Instr) (rest : List Byte), decode bytes = .ok (i, rest) → bytes = encode i ++ rest

/-- R90 and R98: the opcode byte alone fixes handler, mode and length, which is 1, 2 or 3, the opcode byte and the
operand bytes decoding takes. -/
def Obligations.OpcodeByteFixesLength : Prop :=
  ∀ (op : Byte) (bytes bytes' rest rest' : List Byte) (i i' : Instr),
    decode (op :: bytes) = .ok (i, rest) → decode (op :: bytes') = .ok (i', rest') →
      i.len = i'.len ∧ i.mnemonic = i'.mnemonic ∧ i.mode = i'.mode ∧
      (i.len = 1 ∨ i.len = 2 ∨ i.len = 3) ∧ bytes.length + 1 = rest.length + i.len

/-- R97: a byte that is none of the 18 opcodes of R95, 238 of them (0x02, 0x80 and 0xFC among them), is no instruction,
and fetching it is a decode failure (R102, R202). That HaltedError records the byte and its address is the spec's
decision D18, and that run_state holds them the model's choice (log entry 8). -/
def Obligations.UndefinedBytesAreDecodeFailures : Prop :=
  (definedOpcodes.Nodup ∧ definedOpcodes.length + 238 = 256) ∧
  (0x02#8 ∉ definedOpcodes ∧ 0x80#8 ∉ definedOpcodes ∧ 0xFC#8 ∉ definedOpcodes) ∧
  (∀ (op : Byte) (rest : List Byte), op ∉ definedOpcodes ↔ decode (op :: rest) = .error (.undefinedOpcode op)) ∧
  ∀ s : State, s.runState = .running → s.readByte s.pc ∉ definedOpcodes →
    ∃ t, step s = .next t ∧ t.runState = .haltedError (s.readByte s.pc) s.pc

/-- Some words written out from R95 decode to what they stand for, and 0x89, which would be STA Immediate, to none (a
sanity statement). That 0x8D is STA Absolute and 0x91 STA Indirect_Y is the spec's own inference (log entry 9). -/
def Obligations.SpecWordsDecode : Prop :=
  decode [0x00#8] = .ok (.brk, []) ∧ decode [0xAA#8] = .ok (.tax, []) ∧ decode [0xE8#8] = .ok (.inx, []) ∧
  decode [0xA9#8, 0xC0#8] = .ok (.ldaImmediate 0xC0#8, []) ∧
  decode [0xBD#8, 0x32#8, 0x12#8] = .ok (.ldaAbsoluteX 0x1232#16, []) ∧
  decode [0xA1#8, 0x1E#8] = .ok (.ldaIndirectX 0x1E#8, []) ∧
  decode [0x8D#8, 0x07#8, 0x80#8] = .ok (.staAbsolute 0x8007#16, []) ∧
  decode [0x91#8, 0x20#8] = .ok (.staIndirectY 0x20#8, []) ∧
  decode [0x89#8, 0x00#8] = .error (.undefinedOpcode 0x89#8)

/-! ### The step -/

/-- R101 to R105: when the bytes at PC decode to `i`, the running engine's step is `exec i` with PC = pcb, the address
after the opcode byte, and after it, if PC is still pcb, PC moves past the operand bytes. -/
def Obligations.StepRunsDecodedInstruction : Prop :=
  ∀ (s : State) (i : Instr) (rest : List Byte), s.runState = .running → decode s.fetchBytes = .ok (i, rest) →
    ∃ u, exec i (s.setPc (s.pc + 1#16)) = .next u ∧
      step s = .next (if u.pc = s.pc + 1#16 then u.setPc (s.pc + 1#16 + BitVec.ofNat 16 (i.len - 1)) else u)

/-- When the encoding of `i` stands in memory from PC up, with wrap past 0xFFFF, the running engine runs `i` and ends
with PC at the opcode address +16 len (R90, R105). -/
def Obligations.EncodedBytesAtPcRun : Prop :=
  ∀ (s : State) (i : Instr), s.runState = .running → s.holdsAtPc i →
    ∃ u, exec i (s.setPc (s.pc + 1#16)) = .next u ∧ step s = .next (u.setPc (s.pc + BitVec.ofNat 16 (encode i).length))

/-- R107: one step of the running engine is the step the spec writes as pseudocode, with the opcode table and with the
resolver reading the operand bytes at PC. -/
def Obligations.StepIsPseudocodeStep : Prop :=
  ∀ s : State, s.runState = .running → step s = .next (engineStep lookup s)

/-- R100: the engine takes a step only when run_state = Running; there it always takes one, and in Idle, HaltedNormal,
HaltedError and Faulted it has none. (Which named stop the model answers there is log entry 6.) -/
def Obligations.EngineStepsExactlyWhenRunning : Prop :=
  ∀ s : State, (∃ t, step s = .next t) ↔ s.runState = .running

/-- R102, R202, R208: on an undefined opcode byte the run ends as HaltedError, recording the byte and its address; A, X, Y,
P and memory are unchanged, and a later `run()` goes on past the byte. That the byte and its address are
recorded is the spec's decision D18, and that they stand inside run_state and are gone after `run()` the model's choice
(log entry 8); that PC is the fetch address +16 1 is decision D7 (log entry 10), and that `run()` goes on decision D16
(log entry 15). -/
def Obligations.DecodeFailureIsPrecise : Prop :=
  ∀ s : State, s.runState = .running → lookup (s.readByte s.pc) = none →
    ∃ t, step s = .next t ∧ t.runState = .haltedError (s.readByte s.pc) s.pc ∧ t.pc = s.pc + 1#16 ∧
      t.a = s.a ∧ t.x = s.x ∧ t.y = s.y ∧ t.p = s.p ∧ SameMemory s t ∧
      hostRun t = .next { s with pc := s.pc + 1#16 }

/-- R105 with R32: a defined instruction ends with PC at its opcode address +16 len (the spec's own inference). -/
def Obligations.PcAdvancesByEncodedLength : Prop :=
  ∀ (s t : State) (i : Instr) (rest : List Byte), decode s.fetchBytes = .ok (i, rest) → step s = .next t →
    t.pc = s.pc + BitVec.ofNat 16 i.len

/-- R34, R108, R216: a step leaves Running only by BRK, into HaltedNormal, or by an undefined byte, into HaltedError; it
never becomes Idle or Faulted. -/
def Obligations.RunningEndsOnlyByBrkOrUndefinedByte : Prop :=
  ∀ s t : State, step s = .next t →
    (t.runState = .haltedNormal ↔ s.readByte s.pc = 0x00#8) ∧
    ((∃ op at', t.runState = .haltedError op at') ↔ s.readByte s.pc ∉ definedOpcodes) ∧
    (∀ since, t.runState ≠ .idle since) ∧ (∀ op pcb, t.runState ≠ .faulted op pcb)

/-- R21 to R24: A is written by LDA alone, X by TAX and INX alone, Y by no instruction. -/
def Obligations.RegistersWrittenOnlyByTheirInstructions : Prop :=
  ∀ (s t : State) (i : Instr) (rest : List Byte), decode s.fetchBytes = .ok (i, rest) → step s = .next t →
    (i.mnemonic ≠ .lda → t.a = s.a) ∧ (i.mnemonic ≠ .tax → i.mnemonic ≠ .inx → t.x = s.x) ∧ t.y = s.y

/-- R28: LDA updates the flags from the new A, TAX and INX from the new X; STA, BRK and a decode failure leave P
unchanged; `reset()` writes P as a whole. -/
def Obligations.FlagsUpdatedOnlyByLoadTransferIncrement : Prop :=
  (∀ (s t : State) (i : Instr) (rest : List Byte), decode s.fetchBytes = .ok (i, rest) → step s = .next t →
    (i.mnemonic = .lda → FlagsFrom t.a s.p t.p) ∧ (i.mnemonic = .tax → FlagsFrom t.x s.p t.p) ∧
    (i.mnemonic = .inx → FlagsFrom t.x s.p t.p) ∧ (i.mnemonic = .sta → t.p = s.p) ∧
    (i.mnemonic = .brk → t.p = s.p)) ∧
  (∀ s t : State, lookup (s.readByte s.pc) = none → step s = .next t → t.p = s.p) ∧
  ∀ s t : State, hostReset s = .next t → t.p = 0x00#8

/-- R26: no step writes a reserved bit of P. -/
def Obligations.ReservedStatusBitsAreKept : Prop :=
  ∀ s t : State, step s = .next t → ∀ k, k ≠ 1 → k ≠ 7 → t.p.getLsbD k = s.p.getLsbD k

/-- R29: no instruction reads a flag. Two states that differ in P at most step alike, and differ in P at most after. -/
def Obligations.FlagsNeverInfluenceAnythingElse : Prop :=
  ∀ s t s' : State, SameButFlags s t → step s = .next s' → ∃ t', step t = .next t' ∧ SameButFlags s' t'

/-- R56: memory changes only by STA. A step that fetches anything else leaves every byte as it was. -/
def Obligations.MemoryWrittenOnlyByStores : Prop :=
  ∀ s t : State, step s = .next t →
    (∀ i rest, decode s.fetchBytes = .ok (i, rest) → i.mnemonic ≠ .sta → SameMemory s t) ∧
    (lookup (s.readByte s.pc) = none → SameMemory s t)

/-- R74, R75, R248: a STA writes the one byte at the address resolved before the write, even one of its own bytes, and
the very next fetch sees it: a BRK stored on the next opcode's address halts the next step. -/
def Obligations.StoreIsSeenByNextFetch : Prop :=
  ∀ (s : State) (i : Instr) (rest : List Byte) (ea : Addr), s.runState = .running →
    decode s.fetchBytes = .ok (i, rest) → i.mnemonic = .sta →
    resolve i.mode s.mem (s.pc + 1#16) s.x s.y = some ea →
    ∃ t, step s = .next t ∧ StoreEffect ea s t ∧ t.pc = s.pc + BitVec.ofNat 16 i.len ∧
      (ea = t.pc → s.a = 0x00#8 →
        ∃ u, step t = .next u ∧ u.runState = .haltedNormal ∧ u.pc = t.pc + 1#16)

/-! ### Flags, memory and the resolver -/

/-- R27: Z is set exactly when the result is 0, N is bit 7 of the result, and bits 0 and 2 to 6 keep their values. -/
def Obligations.UpdateFlagsWritesOnlyZAndN : Prop :=
  ∀ r p : Byte, FlagsFrom r p (updateFlags r p)

/-- R51: a byte write makes its address read as the byte, and changes no other byte, no register and no run state. -/
def Obligations.ByteWriteChangesOnlyThatByte : Prop :=
  ∀ (s : State) (a : Addr) (v : Byte),
    StoredByte a v s (s.writeByte a v) ∧ (s.writeByte a v).a = s.a ∧ (s.writeByte a v).x = s.x ∧
    (s.writeByte a v).y = s.y ∧ (s.writeByte a v).p = s.p ∧ (s.writeByte a v).pc = s.pc ∧
    (s.writeByte a v).runState = s.runState

/-- R52: a word read is low byte at `a`, high byte at `a +16 1`; at 0xFFFF the high byte comes from 0x0000. -/
def Obligations.WordReadIsLittleEndian : Prop :=
  ∀ (s : State) (a : Addr),
    (s.readWord a).toNat = (s.readByte a).toNat + 256 * (s.readByte (a + 1#16)).toNat ∧
    (s.readWord 0xFFFF#16).toNat = (s.readByte 0xFFFF#16).toNat + 256 * (s.readByte 0x0000#16).toNat

/-- R53: a word written at any address, 0xFFFF included, reads back (the spec's own inference), and every byte but its
two is unchanged. -/
def Obligations.WordWriteReadsBack : Prop :=
  ∀ (s : State) (a w : Addr), (s.writeWord a w).readWord a = w ∧
    (s.writeWord a w).readByte a = w.extractLsb' 0 8 ∧ (s.writeWord a w).readByte (a + 1#16) = w.extractLsb' 8 8 ∧
    ∀ b, b ≠ a → b ≠ a + 1#16 → (s.writeWord a w).readByte b = s.readByte b

/-- Equal memories are equal data: two memories in the canonical form that list the same bytes are one list (the model's
choice, log entry 2). -/
def Obligations.CanonicalMemoriesAreDeterminedByTheirBytes : Prop :=
  ∀ m n : Memory, m.wf → n.wf → (∀ a, m.find a = n.find a) → m = n

/-- R61 to R64: the page-zero modes give an address in page zero, the sum taken modulo 256; Immediate gives pc itself. -/
def Obligations.ResolverComputesPageZeroModes : Prop :=
  ∀ (m : Memory) (pc : Addr) (x y : Byte),
    resolve .immediate m pc x y = some pc ∧
    (∃ ea, resolve .zeroPage m pc x y = some ea ∧ ea.toNat = (m.read pc).toNat) ∧
    (∃ ea, resolve .zeroPageX m pc x y = some ea ∧ ea.toNat = ((m.read pc).toNat + x.toNat) % 256) ∧
    ∃ ea, resolve .zeroPageY m pc x y = some ea ∧ ea.toNat = ((m.read pc).toNat + y.toNat) % 256

/-- R65 to R67: the absolute modes take the little-endian word at pc, low byte first, and add the index modulo 65536. -/
def Obligations.ResolverComputesAbsoluteModes : Prop :=
  ∀ (m : Memory) (pc : Addr) (x y : Byte),
    (∃ ea, resolve .absolute m pc x y = some ea ∧
      ea.toNat = (m.read pc).toNat + 256 * (m.read (pc + 1#16)).toNat) ∧
    (∃ ea, resolve .absoluteX m pc x y = some ea ∧
      ea.toNat = ((m.read pc).toNat + 256 * (m.read (pc + 1#16)).toNat + x.toNat) % 65536) ∧
    ∃ ea, resolve .absoluteY m pc x y = some ea ∧
      ea.toNat = ((m.read pc).toNat + 256 * (m.read (pc + 1#16)).toNat + y.toNat) % 65536

/-- R68: Indirect_X indexes first, modulo 256, and both pointer bytes are read inside page zero. -/
def Obligations.ResolverComputesIndirectX : Prop :=
  ∀ (m : Memory) (pc : Addr) (x y : Byte), ∃ ea ptr ptr' : Addr, resolve .indirectX m pc x y = some ea ∧
    ptr.toNat = ((m.read pc).toNat + x.toNat) % 256 ∧ ptr'.toNat = (ptr.toNat + 1) % 256 ∧
    ea.toNat = (m.read ptr).toNat + 256 * (m.read ptr').toNat

/-- R69: Indirect_Y dereferences first and then adds Y modulo 65536. That the pointer's high byte is read inside page
zero for base 0xFF is the spec's decision D6 (log entry 12). -/
def Obligations.ResolverComputesIndirectY : Prop :=
  ∀ (m : Memory) (pc : Addr) (x y : Byte), ∃ ea ptr ptr' : Addr, resolve .indirectY m pc x y = some ea ∧
    ptr.toNat = (m.read pc).toNat ∧ ptr'.toNat = (ptr.toNat + 1) % 256 ∧
    ea.toNat = ((m.read ptr).toNat + 256 * (m.read ptr').toNat + y.toNat) % 65536

/-- D6: the page-zero reading of the Indirect_Y pointer and the linear one differ for base 0xFF only. -/
def Obligations.IndirectYPointerWrapMattersOnlyAtTopOfPageZero : Prop :=
  ∀ (m : Memory) (base y : Byte), base ≠ 0xFF#8 → eaIndirectY m base y = m.readWord (zext16 base) + zext16 y

/-- R70, R203: a table row that pairs LDA or STA with NoneAddressing would end the step as Faulted, recording the opcode
byte and pcb, with no memory access; the fault is the spec's decision D8 (log entry 11). The model's table has no such
row. That the byte and pcb are recorded is decision D18, and that they stand inside run_state the model's choice (log
entry 8). -/
def Obligations.ResolvingNoneAddressingIsMisuse : Prop :=
  (∀ (table : Byte → Option Row) (r : Row) (s : State), table (s.readByte s.pc) = some r →
    (r.mnemonic = .lda ∨ r.mnemonic = .sta) → r.mode = .noneAddressing →
    engineStep table s =
      { s with pc := s.pc + 1#16, runState := .faulted (s.readByte s.pc) (s.pc + 1#16) }) ∧
  ∀ op r, lookup op = some r → (r.mnemonic = .lda ∨ r.mnemonic = .sta) → r.mode ≠ .noneAddressing

/-! ### Every instruction completes -/

/-- R130: every LDA form completes in every state, with A the byte at its effective address (for Immediate, the operand)
and its frame; PC is left to the engine (R104). -/
def Obligations.EveryLoadFormCompletes : Prop :=
  ∀ s : State,
    (∀ b, ∃ t, exec (.ldaImmediate b) s = .next t ∧ LoadEffect b s t ∧ t.pc = s.pc) ∧
    (∀ b, ∃ t, exec (.ldaZeroPage b) s = .next t ∧ LoadEffect (s.readByte (eaZeroPage b)) s t ∧ t.pc = s.pc) ∧
    (∀ b, ∃ t, exec (.ldaZeroPageX b) s = .next t ∧
      LoadEffect (s.readByte (eaZeroPageIndexed b s.x)) s t ∧ t.pc = s.pc) ∧
    (∀ w, ∃ t, exec (.ldaAbsolute w) s = .next t ∧ LoadEffect (s.readByte (eaAbsolute w)) s t ∧ t.pc = s.pc) ∧
    (∀ w, ∃ t, exec (.ldaAbsoluteX w) s = .next t ∧
      LoadEffect (s.readByte (eaAbsoluteIndexed w s.x)) s t ∧ t.pc = s.pc) ∧
    (∀ w, ∃ t, exec (.ldaAbsoluteY w) s = .next t ∧
      LoadEffect (s.readByte (eaAbsoluteIndexed w s.y)) s t ∧ t.pc = s.pc) ∧
    (∀ b, ∃ t, exec (.ldaIndirectX b) s = .next t ∧
      LoadEffect (s.readByte (eaIndirectX s.mem b s.x)) s t ∧ t.pc = s.pc) ∧
    (∀ b, ∃ t, exec (.ldaIndirectY b) s = .next t ∧
      LoadEffect (s.readByte (eaIndirectY s.mem b s.y)) s t ∧ t.pc = s.pc)

/-- R150: every STA form completes in every state: A is stored at its effective address, computed in the state before the
store, every other byte reads as before, and no register or flag changes. -/
def Obligations.EveryStoreFormCompletes : Prop :=
  ∀ s : State,
    (∀ b, ∃ t, exec (.staZeroPage b) s = .next t ∧ StoreEffect (eaZeroPage b) s t ∧ t.pc = s.pc) ∧
    (∀ b, ∃ t, exec (.staZeroPageX b) s = .next t ∧ StoreEffect (eaZeroPageIndexed b s.x) s t ∧ t.pc = s.pc) ∧
    (∀ w, ∃ t, exec (.staAbsolute w) s = .next t ∧ StoreEffect (eaAbsolute w) s t ∧ t.pc = s.pc) ∧
    (∀ w, ∃ t, exec (.staAbsoluteX w) s = .next t ∧ StoreEffect (eaAbsoluteIndexed w s.x) s t ∧ t.pc = s.pc) ∧
    (∀ w, ∃ t, exec (.staAbsoluteY w) s = .next t ∧ StoreEffect (eaAbsoluteIndexed w s.y) s t ∧ t.pc = s.pc) ∧
    (∀ b, ∃ t, exec (.staIndirectX b) s = .next t ∧ StoreEffect (eaIndirectX s.mem b s.x) s t ∧ t.pc = s.pc) ∧
    (∀ b, ∃ t, exec (.staIndirectY b) s = .next t ∧ StoreEffect (eaIndirectY s.mem b s.y) s t ∧ t.pc = s.pc)

/-- R170, R171: TAX and INX complete in every state; the increment wraps at 256. -/
def Obligations.TransferAndIncrementComplete : Prop :=
  ∀ s : State,
    (∃ t, exec .tax s = .next t ∧ IndexEffect s.a s t ∧ t.pc = s.pc) ∧
    ∃ t v, exec .inx s = .next t ∧ IndexEffect v s t ∧ v.toNat = (s.x.toNat + 1) % 256 ∧ t.pc = s.pc

/-- R180: BRK completes in every state: run_state becomes HaltedNormal and nothing else changes. -/
def Obligations.BreakCompletes : Prop :=
  ∀ s : State, exec .brk s = .next { s with runState := .haltedNormal }

/-! ### Each opcode, from its byte in memory to the state after its step -/

/-- R131, R132, R133: when the running engine fetches 0xA9, 0xA5 or 0xB5, its step loads A with the byte at pc +16 1, at the
page-zero address that byte gives, or at that byte +8 X; Z and N come from it; X, Y, memory, the reserved bits of P and
run_state are unchanged; PC ends 2 on, with wrap. -/
def Obligations.LoadImmediateAndZeroPageRun : Prop :=
  OpcodeLoads 0xA9#8 2 (fun s => s.pc + 1#16) ∧
  OpcodeLoads 0xA5#8 2 (fun s => s.operandByte.setWidth 16) ∧
  OpcodeLoads 0xB5#8 2 (fun s => (s.operandByte + s.x).setWidth 16)

/-- R134, R135, and R136 likewise: when the running engine fetches 0xAD, 0xBD or 0xB9, its step loads A with the byte at the
operand word, at that word +16 X, or +16 Y; Z and N come from it; X, Y, memory, the reserved bits of P and run_state are
unchanged; PC ends 3 on, with wrap. -/
def Obligations.LoadAbsoluteRuns : Prop :=
  OpcodeLoads 0xAD#8 3 (fun s => s.operandWord) ∧
  OpcodeLoads 0xBD#8 3 (fun s => s.operandWord + s.x.setWidth 16) ∧
  OpcodeLoads 0xB9#8 3 (fun s => s.operandWord + s.y.setWidth 16)

/-- R137: when the running engine fetches 0xA1, its step loads A with the byte at the word that the page-zero pointer base
+8 X holds, both pointer bytes in page zero; Z and N come from it; X, Y, memory, the reserved bits of P and run_state are
unchanged; PC ends 2 on. -/
def Obligations.LoadIndirectXRuns : Prop :=
  OpcodeLoads 0xA1#8 2 (fun s =>
    s.readByte ((s.operandByte + s.x + 1#8).setWidth 16) ++ s.readByte ((s.operandByte + s.x).setWidth 16))

/-- R138: when the running engine fetches 0xB1, its step loads A with the byte at the word that the page-zero pointer base
holds, +16 Y; Z and N come from it; X, Y, memory, the reserved bits of P and run_state are unchanged; PC ends 2 on. The
high pointer byte for base 0xFF is the spec's decision D6 (log entry 12). -/
def Obligations.LoadIndirectYRuns : Prop :=
  OpcodeLoads 0xB1#8 2 (fun s =>
    (s.readByte ((s.operandByte + 1#8).setWidth 16) ++ s.readByte (s.operandByte.setWidth 16)) + s.y.setWidth 16)

/-- R151, R152: when the running engine fetches 0x85 or 0x95, its step stores A at the page-zero address of the operand byte,
or of that byte +8 X; every other byte, A, X, Y, P and run_state are unchanged; PC ends 2 on. The pairing of STA opcodes
and modes is the spec's own inference (log entry 9). -/
def Obligations.StoreZeroPageRuns : Prop :=
  OpcodeStores 0x85#8 2 (fun s => s.operandByte.setWidth 16) ∧
  OpcodeStores 0x95#8 2 (fun s => (s.operandByte + s.x).setWidth 16)

/-- R153, R154, R155: when the running engine fetches 0x8D, 0x9D or 0x99, its step stores A at the operand word, at that word
+16 X, or +16 Y; every other byte, A, X, Y, P and run_state are unchanged; PC ends 3 on. The pairing of STA opcodes and
modes is the spec's own inference (log entry 9). -/
def Obligations.StoreAbsoluteRuns : Prop :=
  OpcodeStores 0x8D#8 3 (fun s => s.operandWord) ∧
  OpcodeStores 0x9D#8 3 (fun s => s.operandWord + s.x.setWidth 16) ∧
  OpcodeStores 0x99#8 3 (fun s => s.operandWord + s.y.setWidth 16)

/-- R156, R157: when the running engine fetches 0x81 or 0x91, its step stores A at the word that the page-zero pointer base
+8 X holds, or at the word that the pointer base holds, +16 Y; every other byte, A, X, Y, P and run_state are unchanged; PC
ends 2 on. The pairing of STA opcodes and modes is the spec's own inference (log entry 9), and the high pointer byte for
base 0xFF of 0x91 its decision D6 (log entry 12). -/
def Obligations.StoreIndirectRuns : Prop :=
  OpcodeStores 0x81#8 2 (fun s =>
    s.readByte ((s.operandByte + s.x + 1#8).setWidth 16) ++ s.readByte ((s.operandByte + s.x).setWidth 16)) ∧
  OpcodeStores 0x91#8 2 (fun s =>
    (s.readByte ((s.operandByte + 1#8).setWidth 16) ++ s.readByte (s.operandByte.setWidth 16)) + s.y.setWidth 16)

/-- R170: when the running engine fetches 0xAA, X takes A's value, Z and N come from it, A, Y, memory, the reserved bits of P
and run_state are unchanged, and PC ends 1 on. -/
def Obligations.TransferRuns : Prop :=
  ∀ s : State, s.runState = .running → s.readByte s.pc = 0xAA#8 →
    ∃ t, step s = .next t ∧ IndexEffect s.a s t ∧ t.pc = s.pc + 1#16

/-- R171: when the running engine fetches 0xE8, X becomes one more modulo 256, Z and N come from the new X, A, Y, memory, the
reserved bits of P and run_state are unchanged, and PC ends 1 on. -/
def Obligations.IncrementRuns : Prop :=
  ∀ s : State, s.runState = .running → s.readByte s.pc = 0xE8#8 →
    ∃ t v, step s = .next t ∧ IndexEffect v s t ∧ v.toNat = (s.x.toNat + 1) % 256 ∧ t.pc = s.pc + 1#16

/-- R180: the running engine's step on 0x00: HaltedNormal with PC one on, A, X, Y, P and memory unchanged. That a later
`run()` resumes there, a halt not being sticky, is the spec's decision D16 (log entry 15). -/
def Obligations.BreakHaltsNormally : Prop :=
  ∀ s : State, s.runState = .running → s.readByte s.pc = 0x00#8 →
    ∃ t, step s = .next t ∧ t.CleanEnd ∧ t.pc = s.pc + 1#16 ∧ t.a = s.a ∧ t.x = s.x ∧ t.y = s.y ∧ t.p = s.p ∧
      SameMemory s t ∧ hostRun t = .next { s with pc := s.pc + 1#16 }

/-! ### Host operations -/

/-- R240: `reset()` zeroes A, X, Y and P and sets PC from the vector as memory holds it. That it leaves memory and makes
the engine Idle are the spec's decisions D22 (log entry 13) and D9 (log entry 8), and that it is
allowed in every state but Running its decision D21 (log entry 18). -/
def Obligations.ResetSetsRegistersAndPc : Prop :=
  ∀ s : State, s.runState ≠ .running →
    ∃ t, hostReset s = .next t ∧ t.a = 0x00#8 ∧ t.x = 0x00#8 ∧ t.y = 0x00#8 ∧ t.p = 0x00#8 ∧
      t.pc = s.readByte 0xFFFD#16 ++ s.readByte 0xFFFC#16 ∧ t.runState = .idle .reset ∧ SameMemory s t

/-- The named state State.reset is what `reset()` leaves where the vector holds the loader's 0x8000, but for memory,
which it does not list (the model's choice, log entry 3). That `reset()` leaves memory as it is is the spec's decision D22
(log entry 13), that it leaves the engine Idle D9 (log entry 8), and that it is allowed in every state but Running D21 (log
entry 18). -/
def Obligations.NamedResetStateIsAResult : Prop :=
  ∀ s : State, s.runState ≠ .running → s.readWord 0xFFFC#16 = 0x8000#16 →
    hostReset s = .next { State.reset with mem := s.mem }

/-- R241: `reset()` twice in a row leaves the same state both times (the spec's own inference). The whole state is compared, so
it rests on decisions D22, memory kept (log entry 13), and D9, Idle (log entry 8), and on D21, a reset allowed after a reset
(log entry 18). -/
def Obligations.ResetIsIdempotent : Prop :=
  ∀ s t : State, hostReset s = .next t → hostReset t = .next t

/-- R242: `load_program` puts the bytes at 0x8000 upward and 0x8000 in the vector, and changes nothing else. That over
0x8000 bytes are refused and that the vector is written last are the spec's decision D13 (log entry 14), and that it is allowed in every state but Running D21 (log
entry 18). -/
def Obligations.LoadProgramWritesBytesAndVector : Prop :=
  ∀ (s : State) (bytes : List Byte), s.runState ≠ .running →
    (0x8000 < bytes.length → hostLoadProgram bytes s = .refused (.programTooLong bytes.length)) ∧
    (bytes.length ≤ 0x8000 → ∃ t, hostLoadProgram bytes s = .next t ∧
      t.readByte 0xFFFC#16 = 0x00#8 ∧ t.readByte 0xFFFD#16 = 0x80#8 ∧
      (∀ a : Addr, a ≠ 0xFFFC#16 → a ≠ 0xFFFD#16 →
        t.readByte a = (if 0x8000 ≤ a.toNat then bytes[a.toNat - 0x8000]?.getD (s.readByte a) else s.readByte a)) ∧
      t.a = s.a ∧ t.x = s.x ∧ t.y = s.y ∧ t.p = s.p ∧ t.pc = s.pc ∧ t.runState = s.runState)

/-- R244, R37: `run()` before the first reset is refused; after one, in any state but Running, it makes the engine Running
and changes nothing else (that registers hold no value before the first reset is the spec's decision D4, log
entry 4; that a halt is not sticky its decision D16, log entry 15; that a recorded failure is gone with the run_state that
held it the model's choice, log entry 8). -/
def Obligations.RunStartsFromCurrentState : Prop :=
  (∀ s : State, s.BeforeFirstReset → hostRun s = .refused .noResetSincePowerOn) ∧
  ∀ s : State, s.runState ≠ .running → ¬ s.BeforeFirstReset → hostRun s = .next { s with runState := .running }

/-- R245: while Running, the host has no move: every operation and both accessors are refused. -/
def Obligations.HostHasNoMoveWhileRunning : Prop :=
  ∀ s : State, s.runState = .running →
    (∀ op : HostOp, hostApply op s = .refused .hostWhileRunning) ∧
    ∀ a : Addr, hostReadByte a s = .error .hostWhileRunning ∧ hostReadWord a s = .error .hostWhileRunning

/-- R77: the host's accessors, in any state but Running, are the bus reads and writes: what is written is read back, every
other byte and everything but memory is unchanged. That they are allowed in every state but Running is the spec's decision
D21 (log entry 18). -/
def Obligations.HostAccessorsReadAndWriteMemory : Prop :=
  ∀ (s : State) (a w : Addr) (v : Byte), s.runState ≠ .running →
    hostReadByte a s = .ok (s.readByte a) ∧ hostReadWord a s = .ok (s.readWord a) ∧
    (∃ t, hostWriteByte a v s = .next t ∧ StoredByte a v s t ∧ hostReadByte a t = .ok v ∧ t = { s with mem := t.mem }) ∧
    ∃ t, hostWriteWord a w s = .next t ∧ hostReadWord a t = .ok w ∧ t = { s with mem := t.mem } ∧
      ∀ b, b ≠ a → b ≠ a + 1#16 → t.readByte b = s.readByte b

/-- R243, R246: `load_and_run` of at most 0x8000 bytes with the reset flag starts the engine at 0x8000 with A, X, Y and P
zero, from any state but Running. For programs of 0x7FFD to 0x8000 bytes PC rests on the vector being written after the
bytes, the spec's decision D13 (log entry 14); that the operations are allowed in every state but Running is D21 (log entry
18). -/
def Obligations.LoadAndRunStartsAtOrigin : Prop :=
  ∀ (s : State) (bytes : List Byte), s.runState ≠ .running → bytes.length ≤ 0x8000 →
    ∃ t, hostLoadAndRun bytes true s = .next t ∧ t.runState = .running ∧ t.pc = 0x8000#16 ∧
      t.a = 0x00#8 ∧ t.x = 0x00#8 ∧ t.y = 0x00#8 ∧ t.p = 0x00#8

/-- R243: `load_and_run` without the reset flag is `load_program` and then `run()`: after a first reset the engine runs from
the A, X, Y, P and PC of before, with the memory the load leaves (its length limit is the spec's decision D13, log entry
14, and that a halted engine runs on its decision D16, log entry 15); before any reset it is refused (R244; D4, log entry 4). That the operations are allowed
in every state but Running is D21 (log entry 18). -/
def Obligations.LoadAndRunWithoutResetKeepsRegisters : Prop :=
  ∀ (s : State) (bytes : List Byte), s.runState ≠ .running → bytes.length ≤ 0x8000 →
    (s.BeforeFirstReset → hostLoadAndRun bytes false s = .refused .noResetSincePowerOn) ∧
    (¬ s.BeforeFirstReset → ∃ t u, hostLoadProgram bytes s = .next u ∧ hostLoadAndRun bytes false s = .next t ∧
      SameMemory u t ∧ t.runState = .running ∧
      t.a = s.a ∧ t.x = s.x ∧ t.y = s.y ∧ t.p = s.p ∧ t.pc = s.pc)

/-! ### Invariants and runs -/

/-- The reset state meets the invariant (its PC is the model's choice, log entry 3, of which the invariant says nothing;
the canonical form of memory is the model's choice, log entry 2). -/
def Obligations.ResetStateMeetsInvariant : Prop :=
  State.reset.Inv

/-- Every step of the engine keeps the invariant. Its clauses are no plain rules: the canonical form of memory is the
model's choice (log entry 2); that fail_info stands inside HaltedError is the model's choice (log entry 8, D18), and that
PC is then the fetch address +16 1 the spec's decision D7 (log entry 10); that Faulted is not reached rests on decision D8
(log entry 11, R70); that Y stays 0 and P is 0x00, 0x02 or 0x80 are inferences of the spec's own (R23, R26). -/
def Obligations.StepKeepsInvariant : Prop :=
  ∀ s t : State, s.Inv → step s = .next t → t.Inv

/-- Every host operation of R240 to R244 and R77 keeps the invariant, which rests on the same choices and inferences as in
StepKeepsInvariant: canonical memory (log entry 2), fail_info inside HaltedError (log entry 8), PC after a decode failure
(D7, log entry 10), Faulted (D8, log entry 11), and the inferences of R23 and R26. -/
def Obligations.HostOperationKeepsInvariant : Prop :=
  ∀ (op : HostOp) (s t : State), s.Inv → hostApply op s = .next t → t.Inv

/-- R20, R23, R26, R203: in every state the block can be in from power-on, Faulted does not occur, and from the first
reset on Y is 0 and P is 0x00, 0x02 or 0x80 (inferences of the spec's own). That memory keeps its canonical form is the
model's choice (log entry 2); Faulted is the spec's decision D8 (log entry 11). -/
def Obligations.ReachableStatesAreNeverFaulted : Prop :=
  ∀ s : State, Reachable s → (∀ op pcb, s.runState ≠ .faulted op pcb) ∧ s.mem.wf ∧
    (¬ s.BeforeFirstReset → s.y = 0x00#8 ∧ (s.p = 0x00#8 ∨ s.p = 0x02#8 ∨ s.p = 0x80#8))

/-- R244, R217: a run has one end: two ends of one run are the same state, a run that ends does not hang, and a run that
does not hang ends. -/
def Obligations.RunHasOneEndOrHangs : Prop :=
  ∀ s : State, (∀ t u, Completes s t → Completes s u → t = u) ∧ ((∃ t, Completes s t) ↔ ¬ Hangs s)

/-- R201, R217: a run that ends, ends cleanly by BRK or in HaltedError on an undefined byte, with code 0 or 1. The codes and
the recorded byte and address are the spec's decision D18, held in run_state by the model's choice (log entry 8); that PC
is then the recorded address +16 1 is its decision D7 (log entry 10). -/
def Obligations.CompletedRunIsBreakOrDecodeFailure : Prop :=
  ∀ s t : State, s.runState = .running → Completes s t →
    (t.CleanEnd ∧ t.runState.haltKind.map HaltKind.code = some 0) ∨
    (t.FailedEnd ∧ t.runState.haltKind.map HaltKind.code = some 1 ∧
      ∃ op at', t.runState = .haltedError op at' ∧ op ∉ definedOpcodes ∧ t.pc = at' + 1#16)

/-- R108: a memory full of 0xE8 (INX) gives a run that never ends, with PC and X wrapping round (the rule's own example). -/
def Obligations.MemoryFullOfIncrementsHangs : Prop :=
  ∀ s : State, s.runState = .running → (∀ a, s.readByte a = 0xE8#8) →
    Hangs s ∧ ∀ k, (loopState k s).pc = s.pc + BitVec.ofNat 16 k ∧ (loopState k s).x = s.x + BitVec.ofNat 8 k
end

