-- ==== Sys2Proof/Laws/State.lean ====
section
/-! SUPPORT. One lemma per field of State and per update, so that no proof unfolds a record update. -/

namespace Sys2Proof.Machine

variable (s : State)

/-! ### setPc -/

@[simp] theorem State.setPc_a (target : Addr) : (s.setPc target).a = s.a := rfl
@[simp] theorem State.setPc_x (target : Addr) : (s.setPc target).x = s.x := rfl
@[simp] theorem State.setPc_y (target : Addr) : (s.setPc target).y = s.y := rfl
@[simp] theorem State.setPc_p (target : Addr) : (s.setPc target).p = s.p := rfl
@[simp] theorem State.setPc_pc (target : Addr) : (s.setPc target).pc = target := rfl
@[simp] theorem State.setPc_mem (target : Addr) : (s.setPc target).mem = s.mem := rfl
@[simp] theorem State.setPc_runState (target : Addr) : (s.setPc target).runState = s.runState := rfl

/-! ### writeByte -/

@[simp] theorem State.writeByte_a (b : Addr) (v : Byte) : (s.writeByte b v).a = s.a := rfl
@[simp] theorem State.writeByte_x (b : Addr) (v : Byte) : (s.writeByte b v).x = s.x := rfl
@[simp] theorem State.writeByte_y (b : Addr) (v : Byte) : (s.writeByte b v).y = s.y := rfl
@[simp] theorem State.writeByte_p (b : Addr) (v : Byte) : (s.writeByte b v).p = s.p := rfl
@[simp] theorem State.writeByte_pc (b : Addr) (v : Byte) : (s.writeByte b v).pc = s.pc := rfl
@[simp] theorem State.writeByte_mem (b : Addr) (v : Byte) : (s.writeByte b v).mem = s.mem.write b.toNat v := rfl
@[simp] theorem State.writeByte_runState (b : Addr) (v : Byte) : (s.writeByte b v).runState = s.runState := rfl

/-! ### loadAccumulator -/

@[simp] theorem State.loadAccumulator_a (v : Byte) : (s.loadAccumulator v).a = v := rfl
@[simp] theorem State.loadAccumulator_x (v : Byte) : (s.loadAccumulator v).x = s.x := rfl
@[simp] theorem State.loadAccumulator_y (v : Byte) : (s.loadAccumulator v).y = s.y := rfl
@[simp] theorem State.loadAccumulator_p (v : Byte) : (s.loadAccumulator v).p = updateFlags v s.p := rfl
@[simp] theorem State.loadAccumulator_pc (v : Byte) : (s.loadAccumulator v).pc = s.pc := rfl
@[simp] theorem State.loadAccumulator_mem (v : Byte) : (s.loadAccumulator v).mem = s.mem := rfl
@[simp] theorem State.loadAccumulator_runState (v : Byte) : (s.loadAccumulator v).runState = s.runState := rfl

/-! ### loadX -/

@[simp] theorem State.loadX_a (v : Byte) : (s.loadX v).a = s.a := rfl
@[simp] theorem State.loadX_x (v : Byte) : (s.loadX v).x = v := rfl
@[simp] theorem State.loadX_y (v : Byte) : (s.loadX v).y = s.y := rfl
@[simp] theorem State.loadX_p (v : Byte) : (s.loadX v).p = updateFlags v s.p := rfl
@[simp] theorem State.loadX_pc (v : Byte) : (s.loadX v).pc = s.pc := rfl
@[simp] theorem State.loadX_mem (v : Byte) : (s.loadX v).mem = s.mem := rfl
@[simp] theorem State.loadX_runState (v : Byte) : (s.loadX v).runState = s.runState := rfl

/-! ### loadFrom -/

@[simp] theorem State.loadFrom_a (ea : Addr) : (s.loadFrom ea).a = s.readByte ea := rfl
@[simp] theorem State.loadFrom_x (ea : Addr) : (s.loadFrom ea).x = s.x := rfl
@[simp] theorem State.loadFrom_y (ea : Addr) : (s.loadFrom ea).y = s.y := rfl
@[simp] theorem State.loadFrom_p (ea : Addr) : (s.loadFrom ea).p = updateFlags (s.readByte ea) s.p := rfl
@[simp] theorem State.loadFrom_pc (ea : Addr) : (s.loadFrom ea).pc = s.pc := rfl
@[simp] theorem State.loadFrom_mem (ea : Addr) : (s.loadFrom ea).mem = s.mem := rfl
@[simp] theorem State.loadFrom_runState (ea : Addr) : (s.loadFrom ea).runState = s.runState := rfl

/-! ### storeTo -/

@[simp] theorem State.storeTo_a (ea : Addr) : (s.storeTo ea).a = s.a := rfl
@[simp] theorem State.storeTo_x (ea : Addr) : (s.storeTo ea).x = s.x := rfl
@[simp] theorem State.storeTo_y (ea : Addr) : (s.storeTo ea).y = s.y := rfl
@[simp] theorem State.storeTo_p (ea : Addr) : (s.storeTo ea).p = s.p := rfl
@[simp] theorem State.storeTo_pc (ea : Addr) : (s.storeTo ea).pc = s.pc := rfl
@[simp] theorem State.storeTo_mem (ea : Addr) : (s.storeTo ea).mem = s.mem.write ea.toNat s.a := rfl
@[simp] theorem State.storeTo_runState (ea : Addr) : (s.storeTo ea).runState = s.runState := rfl

/-! ### endRun -/

@[simp] theorem State.endRun_a (r : RunState) : (s.endRun r).a = s.a := rfl
@[simp] theorem State.endRun_x (r : RunState) : (s.endRun r).x = s.x := rfl
@[simp] theorem State.endRun_y (r : RunState) : (s.endRun r).y = s.y := rfl
@[simp] theorem State.endRun_p (r : RunState) : (s.endRun r).p = s.p := rfl
@[simp] theorem State.endRun_pc (r : RunState) : (s.endRun r).pc = s.pc := rfl
@[simp] theorem State.endRun_mem (r : RunState) : (s.endRun r).mem = s.mem := rfl
@[simp] theorem State.endRun_runState (r : RunState) : (s.endRun r).runState = r := rfl

/-! ### decodeFailure -/

@[simp] theorem State.decodeFailure_a (op : Byte) : (s.decodeFailure op).a = s.a := rfl
@[simp] theorem State.decodeFailure_x (op : Byte) : (s.decodeFailure op).x = s.x := rfl
@[simp] theorem State.decodeFailure_y (op : Byte) : (s.decodeFailure op).y = s.y := rfl
@[simp] theorem State.decodeFailure_p (op : Byte) : (s.decodeFailure op).p = s.p := rfl
@[simp] theorem State.decodeFailure_pc (op : Byte) : (s.decodeFailure op).pc = s.pc := rfl
@[simp] theorem State.decodeFailure_mem (op : Byte) : (s.decodeFailure op).mem = s.mem := rfl
@[simp] theorem State.decodeFailure_runState (op : Byte) : (s.decodeFailure op).runState = .haltedError op (s.pc - 1#16) := rfl

/-! ### resolverMisuse -/

@[simp] theorem State.resolverMisuse_a (op : Byte) : (s.resolverMisuse op).a = s.a := rfl
@[simp] theorem State.resolverMisuse_x (op : Byte) : (s.resolverMisuse op).x = s.x := rfl
@[simp] theorem State.resolverMisuse_y (op : Byte) : (s.resolverMisuse op).y = s.y := rfl
@[simp] theorem State.resolverMisuse_p (op : Byte) : (s.resolverMisuse op).p = s.p := rfl
@[simp] theorem State.resolverMisuse_pc (op : Byte) : (s.resolverMisuse op).pc = s.pc := rfl
@[simp] theorem State.resolverMisuse_mem (op : Byte) : (s.resolverMisuse op).mem = s.mem := rfl
@[simp] theorem State.resolverMisuse_runState (op : Byte) : (s.resolverMisuse op).runState = .faulted op s.pc := rfl

/-! ### atPcb -/

@[simp] theorem State.atPcb_a : (s.atPcb).a = s.a := rfl
@[simp] theorem State.atPcb_x : (s.atPcb).x = s.x := rfl
@[simp] theorem State.atPcb_y : (s.atPcb).y = s.y := rfl
@[simp] theorem State.atPcb_p : (s.atPcb).p = s.p := rfl
@[simp] theorem State.atPcb_pc : (s.atPcb).pc = s.pc + 1#16 := rfl
@[simp] theorem State.atPcb_mem : (s.atPcb).mem = s.mem := rfl
@[simp] theorem State.atPcb_runState : (s.atPcb).runState = s.runState := rfl

/-! ### afterReset -/

@[simp] theorem State.afterReset_a : (s.afterReset).a = 0x00#8 := rfl
@[simp] theorem State.afterReset_x : (s.afterReset).x = 0x00#8 := rfl
@[simp] theorem State.afterReset_y : (s.afterReset).y = 0x00#8 := rfl
@[simp] theorem State.afterReset_p : (s.afterReset).p = 0x00#8 := rfl
@[simp] theorem State.afterReset_pc : (s.afterReset).pc = s.readWord Config.resetVector := rfl
@[simp] theorem State.afterReset_mem : (s.afterReset).mem = s.mem := rfl
@[simp] theorem State.afterReset_runState : (s.afterReset).runState = .idle .reset := rfl

/-! ### writeWord -/

@[simp] theorem State.writeWord_a (b w : Addr) : (s.writeWord b w).a = s.a := rfl
@[simp] theorem State.writeWord_x (b w : Addr) : (s.writeWord b w).x = s.x := rfl
@[simp] theorem State.writeWord_y (b w : Addr) : (s.writeWord b w).y = s.y := rfl
@[simp] theorem State.writeWord_p (b w : Addr) : (s.writeWord b w).p = s.p := rfl
@[simp] theorem State.writeWord_pc (b w : Addr) : (s.writeWord b w).pc = s.pc := rfl
@[simp] theorem State.writeWord_mem (b w : Addr) : (s.writeWord b w).mem = (s.mem.write b.toNat (lowByte w)).write (b + 1#16).toNat (highByte w) := rfl
@[simp] theorem State.writeWord_runState (b w : Addr) : (s.writeWord b w).runState = s.runState := rfl

/-! ### advance -/

@[simp] theorem State.advance_a (pcb : Addr) (len : Nat) : (s.advance pcb len).a = s.a := by
  unfold State.advance; split <;> rfl
@[simp] theorem State.advance_x (pcb : Addr) (len : Nat) : (s.advance pcb len).x = s.x := by
  unfold State.advance; split <;> rfl
@[simp] theorem State.advance_y (pcb : Addr) (len : Nat) : (s.advance pcb len).y = s.y := by
  unfold State.advance; split <;> rfl
@[simp] theorem State.advance_p (pcb : Addr) (len : Nat) : (s.advance pcb len).p = s.p := by
  unfold State.advance; split <;> rfl
@[simp] theorem State.advance_mem (pcb : Addr) (len : Nat) : (s.advance pcb len).mem = s.mem := by
  unfold State.advance; split <;> rfl
@[simp] theorem State.advance_runState (pcb : Addr) (len : Nat) : (s.advance pcb len).runState = s.runState := by
  unfold State.advance; split <;> rfl

/-- A handler that leaves PC at pcb ends `len - 1` further on (R105). -/
@[simp] theorem State.advance_pc_of_unmoved (pcb : Addr) (len : Nat) (h : s.pc = pcb) :
    (s.advance pcb len).pc = pcb + BitVec.ofNat 16 (len - 1) := by
  simp [State.advance, h]

/-! ### writeBytes -/

@[simp] theorem State.writeBytes_a (b : Addr) (bytes : List Byte) : (s.writeBytes b bytes).a = s.a := by
  induction bytes generalizing s b with
  | nil => rfl
  | cons v vs ih => simp [State.writeBytes, ih]
@[simp] theorem State.writeBytes_x (b : Addr) (bytes : List Byte) : (s.writeBytes b bytes).x = s.x := by
  induction bytes generalizing s b with
  | nil => rfl
  | cons v vs ih => simp [State.writeBytes, ih]
@[simp] theorem State.writeBytes_y (b : Addr) (bytes : List Byte) : (s.writeBytes b bytes).y = s.y := by
  induction bytes generalizing s b with
  | nil => rfl
  | cons v vs ih => simp [State.writeBytes, ih]
@[simp] theorem State.writeBytes_p (b : Addr) (bytes : List Byte) : (s.writeBytes b bytes).p = s.p := by
  induction bytes generalizing s b with
  | nil => rfl
  | cons v vs ih => simp [State.writeBytes, ih]
@[simp] theorem State.writeBytes_pc (b : Addr) (bytes : List Byte) : (s.writeBytes b bytes).pc = s.pc := by
  induction bytes generalizing s b with
  | nil => rfl
  | cons v vs ih => simp [State.writeBytes, ih]
@[simp] theorem State.writeBytes_runState (b : Addr) (bytes : List Byte) : (s.writeBytes b bytes).runState = s.runState := by
  induction bytes generalizing s b with
  | nil => rfl
  | cons v vs ih => simp [State.writeBytes, ih]

/-! ### afterLoad -/

@[simp] theorem State.afterLoad_a (bytes : List Byte) : (s.afterLoad bytes).a = s.a := by
  simp [State.afterLoad]
@[simp] theorem State.afterLoad_x (bytes : List Byte) : (s.afterLoad bytes).x = s.x := by
  simp [State.afterLoad]
@[simp] theorem State.afterLoad_y (bytes : List Byte) : (s.afterLoad bytes).y = s.y := by
  simp [State.afterLoad]
@[simp] theorem State.afterLoad_p (bytes : List Byte) : (s.afterLoad bytes).p = s.p := by
  simp [State.afterLoad]
@[simp] theorem State.afterLoad_pc (bytes : List Byte) : (s.afterLoad bytes).pc = s.pc := by
  simp [State.afterLoad]
@[simp] theorem State.afterLoad_runState (bytes : List Byte) : (s.afterLoad bytes).runState = s.runState := by
  simp [State.afterLoad]

end Sys2Proof.Machine
end

