-- ==== Sys2Proof/Laws/Memory.lean ====
section
/-! SUPPORT. Memory: read after write, the frame of a write, and that every memory operation keeps the canonical form. -/

namespace Sys2Proof.Machine

theorem Memory.find_write_same (m : Memory) (a : Nat) (v : Byte) : (m.write a v).find a = some v := by
  induction m with
  | nil => simp [Memory.write, Memory.find]
  | cons c m ih =>
    by_cases h1 : a < c.1
    · simp [Memory.write, Memory.find, h1]
    · by_cases h2 : a = c.1
      · simp [Memory.write, Memory.find, h2]
      · simp [Memory.write, Memory.find, h1, h2, Ne.symm h2, ih]

theorem Memory.find_write_other (m : Memory) {a b : Nat} (v : Byte) (h : b ≠ a) :
    (m.write a v).find b = m.find b := by
  induction m with
  | nil => simp [Memory.write, Memory.find, h.symm]
  | cons c m ih =>
    by_cases h1 : a < c.1
    · simp [Memory.write, Memory.find, h1, h.symm]
    · by_cases h2 : a = c.1
      · subst h2; simp [Memory.write, Memory.find, h.symm]
      · simp [Memory.write, Memory.find, h1, h2, ih]

theorem Memory.read_write_same (m : Memory) (a : Addr) (v : Byte) : (m.write a.toNat v).read a = v := by
  simp [Memory.read, Memory.find_write_same]

theorem Memory.read_write_other (m : Memory) {a b : Addr} (v : Byte) (h : b ≠ a) :
    (m.write a.toNat v).read b = m.read b := by
  have : b.toNat ≠ a.toNat := fun e => h (BitVec.eq_of_toNat_eq e)
  simp [Memory.read, Memory.find_write_other m v this]

/-- The entries of a written memory are the old ones and the new one. -/
theorem Memory.mem_write {m : Memory} {a : Nat} {v : Byte} {c : Host.Cell} (h : c ∈ m.write a v) :
    c = (a, v) ∨ c ∈ m := by
  induction m with
  | nil => simpa [Memory.write] using h
  | cons d m ih =>
    simp only [Memory.write] at h
    split at h
    · simpa using h
    · split at h
      · rcases List.mem_cons.1 h with h | h
        · exact .inl h
        · exact .inr (List.mem_cons_of_mem _ h)
      · rcases List.mem_cons.1 h with h | h
        · exact .inr (h ▸ List.mem_cons_self)
        · exact (ih h).imp_right (List.mem_cons_of_mem _)

/-- A write keeps the canonical form. -/
theorem Memory.wf_write {m : Memory} (h : m.wf) (a : Addr) (v : Byte) : (m.write a.toNat v).wf := by
  obtain ⟨hp, hb⟩ := h
  refine ⟨?_, fun c hc => ?_⟩
  · clear hb
    induction m with
    | nil => simp [Memory.write]
    | cons d m ih =>
      obtain ⟨hd, hm⟩ := List.pairwise_cons.1 hp
      simp only [Memory.write]
      split
      · rename_i h1
        refine List.pairwise_cons.2 ⟨fun c hc => ?_, hp⟩
        rcases List.mem_cons.1 hc with rfl | hc
        · exact h1
        · exact Nat.lt_trans h1 (hd c hc)
      · split
        · rename_i h2
          exact List.pairwise_cons.2 ⟨fun c hc => h2 ▸ hd c hc, hm⟩
        · refine List.pairwise_cons.2 ⟨fun c hc => ?_, ih hm⟩
          rcases Memory.mem_write hc with rfl | hc
          · show d.1 < a.toNat
            omega
          · exact hd c hc
  · rcases Memory.mem_write hc with rfl | hc
    · exact a.isLt
    · exact hb c hc

@[simp] theorem State.readByte_of_mem_eq {s t : State} (h : t.mem = s.mem) (a : Addr) :
    t.readByte a = s.readByte a := by
  simp [State.readByte, h]

theorem State.readByte_writeByte_same (s : State) (a : Addr) (v : Byte) : (s.writeByte a v).readByte a = v :=
  Memory.read_write_same s.mem a v

theorem State.readByte_writeByte_other (s : State) {a b : Addr} (v : Byte) (h : b ≠ a) :
    (s.writeByte a v).readByte b = s.readByte b :=
  Memory.read_write_other s.mem v h

/-- A byte write, said once: its address reads as the byte, every other as before. -/
theorem State.storedByte_writeByte (s : State) (a : Addr) (v : Byte) : StoredByte a v s (s.writeByte a v) :=
  ⟨s.readByte_writeByte_same a v, fun _ h => s.readByte_writeByte_other v h⟩

theorem State.wf_writeByte {s : State} (h : s.mem.wf) (a : Addr) (v : Byte) : (s.writeByte a v).mem.wf :=
  Memory.wf_write h a v

theorem State.wf_writeWord {s : State} (h : s.mem.wf) (a w : Addr) : (s.writeWord a w).mem.wf :=
  Memory.wf_write (Memory.wf_write h _ _) _ _

theorem State.wf_writeBytes {s : State} (h : s.mem.wf) (a : Addr) (bytes : List Byte) :
    (s.writeBytes a bytes).mem.wf := by
  induction bytes generalizing s a with
  | nil => exact h
  | cons b bs ih => exact ih (State.wf_writeByte h a b) _

theorem State.wf_afterLoad {s : State} (h : s.mem.wf) (bytes : List Byte) : (s.afterLoad bytes).mem.wf :=
  State.wf_writeWord (State.wf_writeBytes h _ _) _ _

/-- The operand word that the resolver reads at pcb is the one of the two bytes after the opcode (R93). -/
theorem State.readWord_after_opcode (s : State) :
    s.mem.readWord (s.pc + 1#16) = wordOf (s.readByte (s.pc + 1#16)) (s.readByte (s.pc + 2#16)) := by
  simp [Memory.readWord, State.readByte, BitVec.add_assoc]

theorem wordOf_low_high (w : Addr) : wordOf (lowByte w) (highByte w) = w := by
  apply BitVec.eq_of_getLsbD_eq
  intro i hi
  simp only [wordOf, lowByte, highByte, BitVec.getLsbD_append, BitVec.getLsbD_extractLsb']
  by_cases h : i < 8
  · simp [h]
  · have h8 : i - 8 < 8 := by omega
    have he : 8 + (i - 8) = i := by omega
    simp [h, h8, he]

theorem wordOf_toNat (lo hi : Byte) : (wordOf lo hi).toNat = lo.toNat + 256 * hi.toNat := by
  have h := lo.isLt
  rw [wordOf, BitVec.toNat_append, ← Nat.shiftLeft_add_eq_or_of_lt h, Nat.shiftLeft_eq]
  omega

@[simp] theorem lowByte_wordOf (lo hi : Byte) : lowByte (wordOf lo hi) = lo := by
  apply BitVec.eq_of_getLsbD_eq
  intro i hi'
  simp only [wordOf, lowByte, BitVec.getLsbD_append, BitVec.getLsbD_extractLsb', hi']
  simp [hi']

@[simp] theorem highByte_wordOf (lo hi : Byte) : highByte (wordOf lo hi) = hi := by
  apply BitVec.eq_of_getLsbD_eq
  intro i hi'
  simp only [wordOf, highByte, BitVec.getLsbD_append, BitVec.getLsbD_extractLsb', hi']
  simp

end Sys2Proof.Machine
end

