-- ==== Sys2Proof/Laws/Decode.lean ====
section
/-! SUPPORT. The opcode table as a table: every row well formed, no opcode twice, and what a lookup answers. -/

namespace Sys2Proof

theorem opcodeTable_wellFormed : ∀ r ∈ opcodeTable, r.wellFormed = true := by
  decide

theorem opcodeTable_opcodes_nodup : (opcodeTable.map Row.opcode).Nodup := by
  decide

/-- A lookup answers a row of the table, under its own opcode. -/
theorem lookup_some {op : Byte} {r : Row} (h : lookup op = some r) : r ∈ opcodeTable ∧ r.opcode = op :=
  ⟨List.mem_of_find?_eq_some h, by simpa using List.find?_some h⟩

/-- A lookup answers none exactly where no row has the opcode. -/
theorem lookup_none_iff {op : Byte} : lookup op = none ↔ ∀ r ∈ opcodeTable, r.opcode ≠ op := by
  simp [lookup, List.find?_eq_none]

/-- The bytes with no row are those that are none of the 18 opcodes. -/
theorem lookup_none_iff_not_defined {op : Byte} : lookup op = none ↔ op ∉ Machine.definedOpcodes := by
  have h : Machine.definedOpcodes = opcodeTable.map Row.opcode := by decide
  simp [lookup_none_iff, h]

theorem length_encode (i : Instr) : (encode i).length = i.len := by
  cases i <;> rfl

/-- A decoded instruction comes from the row of its opcode byte. -/
theorem decode_ok_row {op : Byte} {bytes rest : List Byte} {i : Instr} (h : decode (op :: bytes) = .ok (i, rest)) :
    ∃ r, lookup op = some r ∧ assemble r.mnemonic r.mode bytes = some (i, rest) := by
  simp only [decode] at h
  split at h
  · cases h
  · rename_i r hr
    split at h
    · cases h
    · rename_i p hp
      cases h
      exact ⟨r, hr, hp⟩

/-- What `assemble` makes has the handler and the mode it was asked for. -/
theorem assemble_shape {mn : Mnemonic} {mode : Mode} {bytes rest : List Byte} {i : Instr}
    (h : assemble mn mode bytes = some (i, rest)) : i.mnemonic = mn ∧ i.mode = mode := by
  unfold assemble at h
  split at h <;> cases h <;> exact ⟨rfl, rfl⟩

/-- Two bytes after a defined opcode are enough operand bytes. -/
theorem assemble_isSome_of_row {r : Row} (h : r ∈ opcodeTable) (b c : Byte) :
    ∃ i rest, assemble r.mnemonic r.mode [b, c] = some (i, rest) := by
  simp only [opcodeTable, impliedRows, loadRows, storeRows, List.cons_append, List.nil_append, List.mem_cons,
    List.not_mem_nil, or_false] at h
  rcases h with h | h | h | h | h | h | h | h | h | h | h | h | h | h | h | h | h | h <;> subst h <;> exact ⟨_, _, rfl⟩

end Sys2Proof
end

