-- ==== Sys2Proof/Laws/Flags.lean ====
section
/-! SUPPORT. What the flag unit does, bit by bit (10_state.md R27). -/

namespace Sys2Proof.Machine

/-- Each bit of the new P. -/
theorem updateFlags_getLsbD (r p : Byte) (k : Nat) :
    (updateFlags r p).getLsbD k =
      if k = 1 then decide (r = 0x00#8) else if k = 7 then r.getLsbD 7 else p.getLsbD k := by
  have hmask : ∀ j < 8, (0x7D#8).getLsbD j = decide (j ≠ 1 ∧ j ≠ 7) := by decide
  have hbit : ∀ (b : Bool) (n : Nat), (bitOf b).getLsbD n = (decide (n = 0) && b) := by
    intro b n
    cases b <;> cases n <;> simp [bitOf, BitVec.getLsbD_one]
  by_cases hk : k < 8
  · simp only [updateFlags, BitVec.getLsbD_or, BitVec.getLsbD_and, BitVec.getLsbD_shiftLeft, hbit, hmask k hk]
    interval_cases k <;> simp [beq_eq_decide]
  · have hk' : 8 ≤ k := Nat.le_of_not_lt hk
    rw [BitVec.getLsbD_of_ge _ _ hk', BitVec.getLsbD_of_ge p _ hk']
    have h1 : k ≠ 1 := by omega
    have h7 : k ≠ 7 := by omega
    simp [h1, h7]

/-- Bit 7 of a byte says that it is 0x80 or more. -/
theorem bit7_iff (r : Byte) : r.getLsbD 7 = true ↔ 0x80 ≤ r.toNat := by
  have h := r.isLt
  rw [BitVec.getLsbD, Nat.testBit_eq_decide_div_mod_eq, decide_eq_true_eq]
  omega

end Sys2Proof.Machine
end

