-- ==== Sys2Proof/Laws/Step.lean ====
section
/-! SUPPORT. What a meaning and a step can do, said once. -/

namespace Sys2Proof.Machine

/-- The four shapes of a meaning's next state. -/
theorem exec_cases {i : Instr} {s t : State} (h : exec i s = .next t) :
    (i.mnemonic = .brk ∧ t = s.endRun .haltedNormal) ∨ (i.mnemonic = .lda ∧ ∃ v, t = s.loadAccumulator v) ∨
    (i.mnemonic = .sta ∧ ∃ ea, t = s.storeTo ea) ∨
    ((i.mnemonic = .tax ∨ i.mnemonic = .inx) ∧ ∃ v, t = s.loadX v) := by
  cases i <;> cases h <;> simp only [Instr.mnemonic, reduceCtorEq, false_and, or_false, false_or, true_and, or_true] <;>
    exact ⟨_, rfl⟩

/-- No meaning stops. -/
theorem exec_next (i : Instr) (s : State) : ∃ t, exec i s = .next t := by
  cases i <;> exact ⟨_, rfl⟩

/-- No meaning moves PC (R32). -/
theorem exec_pc {i : Instr} {s t : State} (h : exec i s = .next t) : t.pc = s.pc := by
  obtain ⟨-, rfl⟩ | ⟨-, v, rfl⟩ | ⟨-, ea, rfl⟩ | ⟨-, v, rfl⟩ := exec_cases h <;> rfl

theorem Instr.one_le_len (i : Instr) : 1 ≤ i.len := by
  cases i <;> simp [Instr.len, Instr.mode, Mode.format, Format.len]

/-- PC after the fetch increment and the operand skip (R101, R105). -/
theorem pc_after {i : Instr} (pc : Addr) : pc + 1#16 + BitVec.ofNat 16 (i.len - 1) = pc + BitVec.ofNat 16 i.len := by
  have h := Instr.one_le_len i
  rw [BitVec.add_assoc]
  congr 1
  rw [show (1#16 : BitVec 16) = BitVec.ofNat 16 1 from rfl, ← BitVec.ofNat_add]
  congr 1
  omega

/-- The bytes at PC decode, or the opcode byte is undefined: nothing else can happen at a fetch. -/
theorem fetch_cases (s : State) :
    (lookup (s.readByte s.pc) = none ∧ decode s.fetchBytes = .error (.undefinedOpcode (s.readByte s.pc))) ∨
    ∃ r i rest, lookup (s.readByte s.pc) = some r ∧ decode s.fetchBytes = .ok (i, rest) ∧
      i.mnemonic = r.mnemonic ∧ i.mode = r.mode := by
  cases hr : lookup (s.readByte s.pc) with
  | none => exact .inl ⟨rfl, by simp [State.fetchBytes, decode, hr]⟩
  | some r =>
    obtain ⟨i, rest, hi⟩ := assemble_isSome_of_row (lookup_some hr).1 (s.readByte (s.pc + 1#16)) (s.readByte (s.pc + 2#16))
    exact .inr ⟨r, i, rest, rfl, by simp [State.fetchBytes, decode, hr, hi], assemble_shape hi⟩

/-- A running step on bytes that decode. -/
theorem step_of_decode {s u : State} {i : Instr} {rest : List Byte} (hs : s.runState = .running)
    (hd : decode s.fetchBytes = .ok (i, rest)) (hu : exec i s.atPcb = .next u) :
    step s = .next (u.setPc (s.pc + BitVec.ofNat 16 i.len)) := by
  have hpc : u.pc = s.atPcb.pc := exec_pc hu
  simp [step, hs, hd, hu, State.advance, hpc, pc_after]

/-- A running step on an undefined opcode byte. -/
theorem step_of_undefined {s : State} (hs : s.runState = .running) (hl : lookup (s.readByte s.pc) = none) :
    step s = .next (s.atPcb.decodeFailure (s.readByte s.pc)) := by
  obtain ⟨-, hd⟩ | ⟨r, i, rest, hr, -⟩ := fetch_cases s
  · simp [step, hs, hd]
  · rw [hl] at hr; cases hr

/-- Everything a step can do. -/
theorem step_cases {s t : State} (h : step s = .next t) :
    s.runState = .running ∧
    ((lookup (s.readByte s.pc) = none ∧ t = s.atPcb.decodeFailure (s.readByte s.pc)) ∨
     ∃ i rest u, decode s.fetchBytes = .ok (i, rest) ∧ exec i s.atPcb = .next u ∧
       t = u.setPc (s.pc + BitVec.ofNat 16 i.len)) := by
  have hs : s.runState = .running := by
    cases hr : s.runState <;> simp [step, hr] at h; rfl
  refine ⟨hs, ?_⟩
  obtain ⟨hl, -⟩ | ⟨r, i, rest, -, hd, -⟩ := fetch_cases s
  · rw [step_of_undefined hs hl] at h
    cases h
    exact .inl ⟨hl, rfl⟩
  · obtain ⟨u, hu⟩ := exec_next i s.atPcb
    rw [step_of_decode hs hd hu] at h
    cases h
    exact .inr ⟨i, rest, u, hd, hu, rfl⟩

end Sys2Proof.Machine
end

