-- ==== Sys2Proof/Laws/PerInstr.lean ====
section
/-! SUPPORT. Statements made per instruction: one lemma per constructor of `Instr`. -/

/-- The first byte of an instruction's encoding has a row in the opcode table; the row's handler and mode are the
instruction's, its length is the number of bytes encoded, and the row is well formed (30_encoding.md R90, R95). -/
def Sys2Proof.Laws.RowOfTable.Statement (i : Sys2Proof.Instr) : Prop :=
  ∃ op operands r, Sys2Proof.encode i = op :: operands ∧ Sys2Proof.lookup op = some r ∧
    r.mnemonic = i.mnemonic ∧ r.mode = i.mode ∧ r.len = i.len ∧ r.len = operands.length + 1 ∧ r.wellFormed = true

namespace Sys2Proof.Laws.RowOfTable

theorem brk : Statement .brk := ⟨_, _, _, rfl, rfl, rfl, rfl, rfl, rfl, rfl⟩
theorem tax : Statement .tax := ⟨_, _, _, rfl, rfl, rfl, rfl, rfl, rfl, rfl⟩
theorem inx : Statement .inx := ⟨_, _, _, rfl, rfl, rfl, rfl, rfl, rfl, rfl⟩
theorem ldaImmediate (v : Byte) : Statement (.ldaImmediate v) := ⟨_, _, _, rfl, rfl, rfl, rfl, rfl, rfl, rfl⟩
theorem ldaZeroPage (v : Byte) : Statement (.ldaZeroPage v) := ⟨_, _, _, rfl, rfl, rfl, rfl, rfl, rfl, rfl⟩
theorem ldaZeroPageX (v : Byte) : Statement (.ldaZeroPageX v) := ⟨_, _, _, rfl, rfl, rfl, rfl, rfl, rfl, rfl⟩
theorem ldaAbsolute (v : Addr) : Statement (.ldaAbsolute v) := ⟨_, _, _, rfl, rfl, rfl, rfl, rfl, rfl, rfl⟩
theorem ldaAbsoluteX (v : Addr) : Statement (.ldaAbsoluteX v) := ⟨_, _, _, rfl, rfl, rfl, rfl, rfl, rfl, rfl⟩
theorem ldaAbsoluteY (v : Addr) : Statement (.ldaAbsoluteY v) := ⟨_, _, _, rfl, rfl, rfl, rfl, rfl, rfl, rfl⟩
theorem ldaIndirectX (v : Byte) : Statement (.ldaIndirectX v) := ⟨_, _, _, rfl, rfl, rfl, rfl, rfl, rfl, rfl⟩
theorem ldaIndirectY (v : Byte) : Statement (.ldaIndirectY v) := ⟨_, _, _, rfl, rfl, rfl, rfl, rfl, rfl, rfl⟩
theorem staZeroPage (v : Byte) : Statement (.staZeroPage v) := ⟨_, _, _, rfl, rfl, rfl, rfl, rfl, rfl, rfl⟩
theorem staZeroPageX (v : Byte) : Statement (.staZeroPageX v) := ⟨_, _, _, rfl, rfl, rfl, rfl, rfl, rfl, rfl⟩
theorem staAbsolute (v : Addr) : Statement (.staAbsolute v) := ⟨_, _, _, rfl, rfl, rfl, rfl, rfl, rfl, rfl⟩
theorem staAbsoluteX (v : Addr) : Statement (.staAbsoluteX v) := ⟨_, _, _, rfl, rfl, rfl, rfl, rfl, rfl, rfl⟩
theorem staAbsoluteY (v : Addr) : Statement (.staAbsoluteY v) := ⟨_, _, _, rfl, rfl, rfl, rfl, rfl, rfl, rfl⟩
theorem staIndirectX (v : Byte) : Statement (.staIndirectX v) := ⟨_, _, _, rfl, rfl, rfl, rfl, rfl, rfl, rfl⟩
theorem staIndirectY (v : Byte) : Statement (.staIndirectY v) := ⟨_, _, _, rfl, rfl, rfl, rfl, rfl, rfl, rfl⟩

end Sys2Proof.Laws.RowOfTable
end

