-- ==== Sys2Proof/Tests/Slice0.lean ====
section
/-! SUPPORT. The model's own tests: ill-formed rows are refused; each constructor's word, written out from the encoding of
30_encoding.md R95, decodes to it; one step of each instruction on a vector of 95_test_vectors.md; and, for each statement
with hypotheses, a state and operands that meet them. -/

namespace Sys2Proof.Tests

open Sys2Proof Sys2Proof.Machine

/-! ### Ill-formed rows (WellFormed.lean): one for each check -/

theorem test_row_lda_implied_refused : Row.referencesMemory ⟨0x02#8, .lda, 1, .implied, .noneAddressing⟩ = false := by decide
theorem test_row_sta_immediate_refused : Row.storesOutsideImmediate ⟨0x89#8, .sta, 2, .byteOperand, .immediate⟩ = false := by decide
theorem test_row_zeroPageY_refused : Row.modeHasAnOpcode ⟨0xB6#8, .lda, 2, .byteOperand, .zeroPageY⟩ = false := by decide
theorem test_row_format_refused : Row.formatOfMode ⟨0xAD#8, .lda, 2, .byteOperand, .absolute⟩ = false := by decide
theorem test_row_length_refused : Row.lengthOfFormat ⟨0xAD#8, .lda, 2, .wordOperand, .absolute⟩ = false := by decide
theorem test_row_ill_formed_refused : Row.wellFormed ⟨0xAA#8, .tax, 2, .byteOperand, .zeroPage⟩ = false := by decide

/-! ### Decoding, each opcode written bit by bit from R95 -/

theorem test_decode_brk : decode [0b00000000#8] = .ok (.brk, []) := by decide
theorem test_decode_tax : decode [0b10101010#8] = .ok (.tax, []) := by decide
theorem test_decode_inx : decode [0b11101000#8] = .ok (.inx, []) := by decide
theorem test_decode_ldaImmediate : decode [0b10101001#8, 0x05#8] = .ok (.ldaImmediate 0x05#8, []) := by decide
theorem test_decode_ldaZeroPage : decode [0b10100101#8, 0x10#8] = .ok (.ldaZeroPage 0x10#8, []) := by decide
theorem test_decode_ldaZeroPageX : decode [0b10110101#8, 0xFF#8] = .ok (.ldaZeroPageX 0xFF#8, []) := by decide
theorem test_decode_ldaAbsolute : decode [0b10101101#8, 0x34#8, 0x12#8] = .ok (.ldaAbsolute 0x1234#16, []) := by decide
theorem test_decode_ldaAbsoluteX : decode [0b10111101#8, 0x32#8, 0x12#8] = .ok (.ldaAbsoluteX 0x1232#16, []) := by decide
theorem test_decode_ldaAbsoluteY : decode [0b10111001#8, 0x34#8, 0x12#8] = .ok (.ldaAbsoluteY 0x1234#16, []) := by decide
theorem test_decode_ldaIndirectX : decode [0b10100001#8, 0x1E#8] = .ok (.ldaIndirectX 0x1E#8, []) := by decide
theorem test_decode_ldaIndirectY : decode [0b10110001#8, 0x20#8] = .ok (.ldaIndirectY 0x20#8, []) := by decide
theorem test_decode_staZeroPage : decode [0b10000101#8, 0x20#8] = .ok (.staZeroPage 0x20#8, []) := by decide
theorem test_decode_staZeroPageX : decode [0b10010101#8, 0xFF#8] = .ok (.staZeroPageX 0xFF#8, []) := by decide
theorem test_decode_staAbsolute : decode [0b10001101#8, 0x07#8, 0x80#8] = .ok (.staAbsolute 0x8007#16, []) := by decide
theorem test_decode_staAbsoluteX : decode [0b10011101#8, 0x00#8, 0x02#8] = .ok (.staAbsoluteX 0x0200#16, []) := by decide
theorem test_decode_staAbsoluteY : decode [0b10011001#8, 0x00#8, 0x03#8] = .ok (.staAbsoluteY 0x0300#16, []) := by decide
theorem test_decode_staIndirectX : decode [0b10000001#8, 0x40#8] = .ok (.staIndirectX 0x40#8, []) := by decide
theorem test_decode_staIndirectY : decode [0b10010001#8, 0x20#8] = .ok (.staIndirectY 0x20#8, []) := by decide

/-- No STA Immediate, no bytes and a cut-off operand are rejected, each by its name (R97, R150). -/
theorem test_decode_rejects :
    decode [0x89#8, 0x00#8] = .error (.undefinedOpcode 0x89#8) ∧ decode [] = .error .noBytes ∧
    decode [0xAD#8, 0x34#8] = .error (.operandMissing 0xAD#8) := by decide

/-- A table word counts its bits from the first byte's least significant bit. -/
theorem test_decodeTableWord :
    decodeTableWord 24 0x1232BD = some (.ldaAbsoluteX 0x1232#16) ∧ decodeTableWord 8 0xFFA9 = some (.ldaImmediate 0x00#8) ∧
    decodeTableWord 8 0x02 = none := by decide

/-! ### One step on the vectors of 95_test_vectors.md -/

/-- A running state with PC at `pc` and memory `mem`. -/
def running (a x y p : Byte) (pc : Addr) (mem : Memory) : State :=
  { a := a, x := x, y := y, p := p, pc := pc, mem := mem, runState := .running }

/-- A view of the next state. -/
def after {α : Type} (o : Host.Outcome State Fault Refusal) (f : State → α) : Option α :=
  match o with
  | .next t => some (f t)
  | .fault _ => none
  | .refused _ => none

/-- A, P and PC, which a load writes. -/
def apc (s : State) : Byte × Byte × Addr := (s.a, s.p, s.pc)

/-- X, P and PC, which a transfer or an increment writes. -/
def xpc (s : State) : Byte × Byte × Addr := (s.x, s.p, s.pc)

theorem test_L01_ldaImmediate_zero :
    after (step (running 0x55#8 0#8 0#8 0x80#8 0x8000#16 [(0x8000, 0xA9#8), (0x8001, 0x00#8), (0x8002, 0x00#8)])) apc =
      some (0x00#8, 0x02#8, 0x8002#16) := by decide

theorem test_L02_ldaImmediate_keeps_reserved_bits :
    after (step (running 0#8 0#8 0#8 0x7D#8 0x8000#16 [(0x8000, 0xA9#8), (0x8001, 0x80#8), (0x8002, 0x00#8)])) apc =
      some (0x80#8, 0xFD#8, 0x8002#16) := by decide

theorem test_L04_ldaZeroPage :
    after (step (running 0#8 0#8 0#8 0#8 0x8000#16
      [(0x00FF, 0x01#8), (0x8000, 0xA5#8), (0x8001, 0xFF#8), (0x8002, 0x00#8)])) apc =
      some (0x01#8, 0x00#8, 0x8002#16) := by decide

theorem test_L05_ldaZeroPageX_wraps :
    after (step (running 0#8 0x02#8 0#8 0#8 0x8000#16
      [(0x0001, 0x99#8), (0x8000, 0xB5#8), (0x8001, 0xFF#8), (0x8002, 0x00#8)])) apc =
      some (0x99#8, 0x80#8, 0x8002#16) := by decide

theorem test_L06_ldaAbsolute_straddles_top :
    after (step (running 0#8 0#8 0#8 0#8 0xFFFE#16
      [(0x0000, 0x12#8), (0x1234, 0x00#8), (0xFFFE, 0xAD#8), (0xFFFF, 0x34#8)])) apc =
      some (0x00#8, 0x02#8, 0x0001#16) := by decide

theorem test_L07_ldaAbsoluteX_wraps :
    after (step (running 0#8 0x02#8 0#8 0#8 0x8000#16
      [(0x0001, 0x80#8), (0x8000, 0xBD#8), (0x8001, 0xFF#8), (0x8002, 0xFF#8)])) apc =
      some (0x80#8, 0x80#8, 0x8003#16) := by decide

theorem test_L09_ldaAbsoluteY :
    after (step (running 0#8 0#8 0x05#8 0#8 0x8000#16
      [(0x2005, 0xFE#8), (0x8000, 0xB9#8), (0x8001, 0x00#8), (0x8002, 0x20#8)])) apc =
      some (0xFE#8, 0x80#8, 0x8003#16) := by decide

theorem test_L10_ldaIndirectX_pointer_wraps :
    after (step (running 0#8 0x01#8 0#8 0#8 0x8000#16
      [(0x0000, 0x30#8), (0x00FF, 0x00#8), (0x3000, 0x5A#8), (0x8000, 0xA1#8), (0x8001, 0xFE#8), (0x8002, 0x00#8)])) apc =
      some (0x5A#8, 0x00#8, 0x8002#16) := by decide

theorem test_L12_ldaIndirectY_base_FF :
    after (step (running 0#8 0#8 0#8 0#8 0x8000#16
      [(0x0000, 0x50#8), (0x00FF, 0x00#8), (0x5000, 0x33#8), (0x8000, 0xB1#8), (0x8001, 0xFF#8), (0x8002, 0x00#8)])) apc =
      some (0x33#8, 0x00#8, 0x8002#16) := by decide

theorem test_L13_ldaIndirectY_wraps_after_add :
    after (step (running 0#8 0#8 0x01#8 0#8 0x8000#16
      [(0x0000, 0x77#8), (0x0020, 0xFF#8), (0x0021, 0xFF#8), (0x8000, 0xB1#8), (0x8001, 0x20#8), (0x8002, 0x00#8)])) apc =
      some (0x77#8, 0x00#8, 0x8002#16) := by decide

theorem test_ST01_staZeroPage_keeps_flags :
    after (step (running 0x34#8 0#8 0#8 0x02#8 0x8000#16 [(0x8000, 0x85#8), (0x8001, 0x20#8), (0x8002, 0x00#8)]))
      (fun t => (t.readByte 0x0020#16, t.p, t.pc)) = some (0x34#8, 0x02#8, 0x8002#16) := by decide

theorem test_ST02_staZeroPageX_wraps :
    after (step (running 0x99#8 0x02#8 0#8 0#8 0x8000#16 [(0x8000, 0x95#8), (0x8001, 0xFF#8), (0x8002, 0x00#8)]))
      (fun t => (t.readByte 0x0001#16, t.pc)) = some (0x99#8, 0x8002#16) := by decide

theorem test_ST03_staAbsolute_own_operand :
    after (step (running 0xEE#8 0#8 0#8 0#8 0x8000#16 [(0x8000, 0x8D#8), (0x8001, 0x01#8), (0x8002, 0x80#8)]))
      (fun t => (t.readByte 0x8001#16, t.pc)) = some (0xEE#8, 0x8003#16) := by decide

theorem test_ST04_staAbsoluteX_wraps :
    after (step (running 0x07#8 0x01#8 0#8 0#8 0x8000#16 [(0x8000, 0x9D#8), (0x8001, 0xFF#8), (0x8002, 0xFF#8)]))
      (fun t => (t.readByte 0x0000#16, t.pc)) = some (0x07#8, 0x8003#16) := by decide

theorem test_ST05_staAbsoluteY :
    after (step (running 0x11#8 0#8 0#8 0#8 0x8000#16 [(0x8000, 0x99#8), (0x8001, 0x00#8), (0x8002, 0x03#8)]))
      (fun t => (t.readByte 0x0300#16, t.pc)) = some (0x11#8, 0x8003#16) := by decide

theorem test_ST06_staIndirectX :
    after (step (running 0xAB#8 0x01#8 0#8 0#8 0x8000#16
      [(0x0041, 0x00#8), (0x0042, 0x05#8), (0x8000, 0x81#8), (0x8001, 0x40#8), (0x8002, 0x00#8)]))
      (fun t => (t.readByte 0x0500#16, t.pc)) = some (0xAB#8, 0x8002#16) := by decide

theorem test_ST07_staIndirectY_own_pointer :
    after (step (running 0x21#8 0#8 0#8 0#8 0x8000#16
      [(0x0020, 0x20#8), (0x0021, 0x00#8), (0x8000, 0x91#8), (0x8001, 0x20#8), (0x8002, 0x00#8)]))
      (fun t => (t.readByte 0x0020#16, t.pc)) = some (0x21#8, 0x8002#16) := by decide

theorem test_T01_tax_zero :
    after (step (running 0x00#8 0x55#8 0#8 0x80#8 0x8000#16 [(0x8000, 0xAA#8)])) xpc =
      some (0x00#8, 0x02#8, 0x8001#16) := by decide

theorem test_I01_inx_wraps :
    after (step (running 0#8 0xFF#8 0#8 0#8 0x8000#16 [(0x8000, 0xE8#8)])) xpc =
      some (0x00#8, 0x02#8, 0x8001#16) := by decide

theorem test_I03_inx_pc_wraps :
    after (step (running 0#8 0x00#8 0#8 0#8 0xFFFF#16 [(0xFFFF, 0xE8#8)])) xpc =
      some (0x01#8, 0x00#8, 0x0000#16) := by decide

theorem test_B01_brk :
    after (step (running 0x01#8 0x02#8 0#8 0x80#8 0x8000#16 [(0x8000, 0x00#8)])) (fun t => (t.runState, apc t, t.x)) =
      some (.haltedNormal, (0x01#8, 0x80#8, 0x8001#16), 0x02#8) := by decide

theorem test_D03_undefined_at_top :
    after (step (running 0#8 0#8 0#8 0#8 0xFFFF#16 [(0xFFFF, 0xFF#8)])) (fun t => (t.runState, t.pc)) =
      some (.haltedError 0xFF#8 0xFFFF#16, 0x0000#16) := by decide

/-! ### Bus, resolver, reset, load, run -/

theorem test_S05_word_wraps :
    ((State.reset.writeWord 0xFFFF#16 0xBEEF#16).readByte 0xFFFF#16, (State.reset.writeWord 0xFFFF#16 0xBEEF#16).readByte 0#16,
      (State.reset.writeWord 0xFFFF#16 0xBEEF#16).readWord 0xFFFF#16) = (0xEF#8, 0xBE#8, 0xBEEF#16) := by decide

theorem test_AM04_zeroPageY_wraps : resolve .zeroPageY [(0x8001, 0x80#8)] 0x8001#16 0#8 0x90#8 = some 0x0010#16 := by decide

theorem test_R01_R02_load_then_reset :
    after (andThen (hostLoadProgram [0xA9#8, 0x01#8] State.powerOn) hostReset)
      (fun t => (t.readByte 0x8000#16, t.readByte 0x8001#16, t.pc, t.a, t.runState)) =
      some (0xA9#8, 0x01#8, 0x8000#16, 0x00#8, .idle .reset) := by decide

theorem test_R03_reset_reads_vector :
    after (hostReset { State.reset with mem := [(0xFFFC, 0xFE#8), (0xFFFD, 0xFF#8)] }) State.pc = some 0xFFFE#16 := by decide

theorem test_R05_run_before_reset_refused : hostRun State.powerOn = .refused .noResetSincePowerOn := rfl

theorem test_step_of_stopped :
    step State.reset = .refused .engineIdle ∧ step (State.reset.endRun .haltedNormal) = .refused .engineHalted ∧
    step (State.reset.endRun (.haltedError 0x02#8 0x8000#16)) = .fault (.decodeFailure 0x02#8 0x8000#16) := ⟨rfl, rfl, rfl⟩

/-- The word of an instruction placed in the reset state is the first instruction to run. -/
theorem test_withFetchWord_runs_first :
    after (step (State.reset.withFetchWord 16 0xC0A9)) apc = some (0xC0#8, 0x80#8, 0x8002#16) := by decide

/-- A load of memory nothing has written completes, with the free value in A. -/
theorem test_load_of_unwritten_memory_runs :
    after (step (State.reset.withFetchWord 8 0xA5)) State.a = some (Config.initialMemory 0x0000#16) := rfl

/-! ### Witnesses: states and operands that meet the hypotheses of the statements

Named after the statement; where it has several clauses, one part for each. -/

theorem witness_EncodeOfDecodeGivesBytesBack :
    decode [0xAD#8, 0x34#8, 0x12#8, 0x00#8] = .ok (.ldaAbsolute 0x1234#16, [0x00#8]) := by decide

theorem witness_OpcodeByteFixesLength :
    decode [0xAD#8, 0x34#8, 0x12#8] = .ok (.ldaAbsolute 0x1234#16, []) ∧
    decode [0xAD#8, 0xFF#8, 0xFF#8, 0x00#8] = .ok (.ldaAbsolute 0xFFFF#16, [0x00#8]) := by decide

/-- A running state that runs TAX at the top of memory, and one for each other handler group. -/
def taxAtTop : State := running 0xC0#8 0#8 0#8 0#8 0xFFFF#16 [(0x0000, 0x00#8), (0x0001, 0x00#8), (0xFFFF, 0xAA#8)]
def inxAtOrigin : State := running 0#8 0xFF#8 0#8 0#8 0x8000#16 [(0x8000, 0xE8#8), (0x8001, 0x00#8), (0x8002, 0x00#8)]
def ldaAtOrigin : State := running 0#8 0#8 0#8 0#8 0x8000#16 [(0x8000, 0xA9#8), (0x8001, 0x05#8), (0x8002, 0x00#8)]
def brkAtTop : State := running 0#8 0#8 0#8 0#8 0xFFFF#16 [(0x0000, 0x00#8), (0x0001, 0x00#8), (0xFFFF, 0x00#8)]
def undefinedAtTop : State := running 0#8 0#8 0#8 0#8 0xFFFF#16 [(0x0000, 0x00#8), (0x0001, 0x00#8), (0xFFFF, 0x02#8)]

/-- STA $8003 with A = 0x00, at 0x8000: it stores a BRK where the next opcode is (as program P3 does). -/
def staNextOpcode : State :=
  running 0x00#8 0#8 0#8 0#8 0x8000#16 [(0x8000, 0x8D#8), (0x8001, 0x03#8), (0x8002, 0x80#8), (0x8003, 0xE8#8)]

/-- Each handler group's state steps, on the instruction it holds. -/
theorem handler_states_step :
    (decode taxAtTop.fetchBytes = .ok (.tax, [0x00#8, 0x00#8]) ∧ ∃ t, step taxAtTop = .next t) ∧
    (decode inxAtOrigin.fetchBytes = .ok (.inx, [0x00#8, 0x00#8]) ∧ ∃ t, step inxAtOrigin = .next t) ∧
    (decode ldaAtOrigin.fetchBytes = .ok (.ldaImmediate 0x05#8, [0x00#8]) ∧ ∃ t, step ldaAtOrigin = .next t) ∧
    (decode staNextOpcode.fetchBytes = .ok (.staAbsolute 0x8003#16, []) ∧ ∃ t, step staNextOpcode = .next t) ∧
    (decode brkAtTop.fetchBytes = .ok (.brk, [0x00#8, 0x00#8]) ∧ ∃ t, step brkAtTop = .next t) ∧
    (lookup (undefinedAtTop.readByte undefinedAtTop.pc) = none ∧ ∃ t, step undefinedAtTop = .next t) :=
  ⟨⟨by decide, _, rfl⟩, ⟨by decide, _, rfl⟩, ⟨by decide, _, rfl⟩, ⟨by decide, _, rfl⟩, ⟨by decide, _, rfl⟩,
    ⟨by decide, _, rfl⟩⟩

theorem witness_UndefinedBytesAreDecodeFailures :
    0x02#8 ∉ definedOpcodes ∧ decode [0x89#8] = .error (.undefinedOpcode 0x89#8) ∧
    undefinedAtTop.runState = .running ∧ undefinedAtTop.readByte undefinedAtTop.pc ∉ definedOpcodes := by decide

theorem witness_StepRunsDecodedInstruction :
    taxAtTop.runState = .running ∧ decode taxAtTop.fetchBytes = .ok (.tax, [0x00#8, 0x00#8]) := by decide

/-- P5: an instruction that straddles the top of memory. -/
theorem witness_EncodedBytesAtPcRun :
    let s := running 0#8 0#8 0#8 0#8 0xFFFE#16 [(0x0000, 0x00#8), (0xFFFE, 0xAD#8), (0xFFFF, 0x10#8)]
    s.runState = .running ∧ s.holdsAtPc (.ldaAbsolute 0x0010#16) := by
  refine ⟨rfl, fun k b h => ?_⟩
  match k, h with
  | 0, h => cases h; rfl
  | 1, h => cases h; rfl
  | 2, h => cases h; rfl
  | k + 3, h => cases h

theorem witness_StepIsPseudocodeStep : taxAtTop.runState = .running := rfl

theorem witness_EngineStepsExactlyWhenRunning :
    taxAtTop.runState = .running ∧ (∃ t, step taxAtTop = .next t) ∧ State.reset.runState ≠ .running :=
  ⟨rfl, ⟨_, rfl⟩, by decide⟩

theorem witness_DecodeFailureIsPrecise :
    undefinedAtTop.runState = .running ∧ lookup (undefinedAtTop.readByte undefinedAtTop.pc) = none := by decide

theorem witness_PcAdvancesByEncodedLength :
    decode taxAtTop.fetchBytes = .ok (.tax, [0x00#8, 0x00#8]) ∧ ∃ t, step taxAtTop = .next t :=
  handler_states_step.1

theorem witness_RunningEndsOnlyByBrkOrUndefinedByte :
    (∃ t, step brkAtTop = .next t) ∧ (∃ t, step undefinedAtTop = .next t) ∧ ∃ t, step taxAtTop = .next t :=
  ⟨⟨_, rfl⟩, ⟨_, rfl⟩, ⟨_, rfl⟩⟩

/-- LDA is neither TAX nor INX, TAX is not LDA. -/
theorem witness_RegistersWrittenOnlyByTheirInstructions :
    (decode taxAtTop.fetchBytes = .ok (.tax, [0x00#8, 0x00#8]) ∧ Instr.tax.mnemonic ≠ .lda ∧ ∃ t, step taxAtTop = .next t) ∧
    (decode ldaAtOrigin.fetchBytes = .ok (.ldaImmediate 0x05#8, [0x00#8]) ∧
      (Instr.ldaImmediate 0x05#8).mnemonic ≠ .tax ∧ (Instr.ldaImmediate 0x05#8).mnemonic ≠ .inx ∧
      ∃ t, step ldaAtOrigin = .next t) :=
  ⟨⟨by decide, by decide, _, rfl⟩, ⟨by decide, by decide, by decide, _, rfl⟩⟩

theorem witness_FlagsUpdatedOnlyByLoadTransferIncrement :
    ((decode ldaAtOrigin.fetchBytes = .ok (.ldaImmediate 0x05#8, [0x00#8]) ∧ ∃ t, step ldaAtOrigin = .next t) ∧
     (decode taxAtTop.fetchBytes = .ok (.tax, [0x00#8, 0x00#8]) ∧ ∃ t, step taxAtTop = .next t) ∧
     (decode inxAtOrigin.fetchBytes = .ok (.inx, [0x00#8, 0x00#8]) ∧ ∃ t, step inxAtOrigin = .next t) ∧
     (decode staNextOpcode.fetchBytes = .ok (.staAbsolute 0x8003#16, []) ∧ ∃ t, step staNextOpcode = .next t) ∧
     (decode brkAtTop.fetchBytes = .ok (.brk, [0x00#8, 0x00#8]) ∧ ∃ t, step brkAtTop = .next t)) ∧
    (lookup (undefinedAtTop.readByte undefinedAtTop.pc) = none ∧ ∃ t, step undefinedAtTop = .next t) ∧
    ∃ t, hostReset State.powerOn = .next t :=
  ⟨⟨handler_states_step.2.2.1, handler_states_step.1, handler_states_step.2.1, handler_states_step.2.2.2.1,
    handler_states_step.2.2.2.2.1⟩, handler_states_step.2.2.2.2.2, _, rfl⟩

theorem witness_ReservedStatusBitsAreKept : (∃ t, step ldaAtOrigin = .next t) ∧ 0 ≠ 1 ∧ 0 ≠ 7 :=
  ⟨⟨_, rfl⟩, by decide, by decide⟩

theorem witness_FlagsNeverInfluenceAnythingElse :
    SameButFlags ldaAtOrigin { ldaAtOrigin with p := 0xFF#8 } ∧ ∃ t, step ldaAtOrigin = .next t :=
  ⟨⟨rfl, rfl, rfl, rfl, rfl, rfl⟩, _, rfl⟩

theorem witness_MemoryWrittenOnlyByStores :
    (decode taxAtTop.fetchBytes = .ok (.tax, [0x00#8, 0x00#8]) ∧ Instr.tax.mnemonic ≠ .sta ∧ ∃ t, step taxAtTop = .next t) ∧
    (lookup (undefinedAtTop.readByte undefinedAtTop.pc) = none ∧ ∃ t, step undefinedAtTop = .next t) :=
  ⟨⟨by decide, by decide, _, rfl⟩, handler_states_step.2.2.2.2.2⟩

theorem witness_StoreIsSeenByNextFetch :
    staNextOpcode.runState = .running ∧ decode staNextOpcode.fetchBytes = .ok (.staAbsolute 0x8003#16, []) ∧
    (Instr.staAbsolute 0x8003#16).mnemonic = .sta ∧
    resolve .absolute staNextOpcode.mem (staNextOpcode.pc + 1#16) staNextOpcode.x staNextOpcode.y = some 0x8003#16 ∧
    after (step staNextOpcode) State.pc = some 0x8003#16 ∧ staNextOpcode.a = 0x00#8 := by decide

theorem witness_WordWriteReadsBack : 0x0001#16 ≠ 0xFFFF#16 ∧ 0x0001#16 ≠ 0xFFFF#16 + 1#16 := by decide

theorem witness_CanonicalMemoriesAreDeterminedByTheirBytes :
    Memory.wf [(0x0000, 0x12#8), (0xFFFF, 0x34#8)] ∧
    ∀ a, Memory.find [(0x0000, 0x12#8), (0xFFFF, 0x34#8)] a = Memory.find [(0x0000, 0x12#8), (0xFFFF, 0x34#8)] a :=
  ⟨by decide, fun _ => rfl⟩

theorem witness_IndirectYPointerWrapMattersOnlyAtTopOfPageZero : 0xFE#8 ≠ 0xFF#8 := by decide

/-- A table unlike the block's, that pairs LDA with NoneAddressing, and the block's own LDA row. -/
theorem witness_ResolvingNoneAddressingIsMisuse :
    (let table : Byte → Option Row := fun op => some ⟨op, .lda, 1, .implied, .noneAddressing⟩
     ∃ r, table (taxAtTop.readByte taxAtTop.pc) = some r ∧ (r.mnemonic = .lda ∨ r.mnemonic = .sta) ∧ r.mode = .noneAddressing) ∧
    ∃ r, lookup 0x91#8 = some r ∧ (r.mnemonic = .lda ∨ r.mnemonic = .sta) :=
  ⟨⟨_, rfl, .inl rfl, rfl⟩, _, rfl, .inr rfl⟩

/-- A running state whose opcode byte, at the top of memory, is `op`. -/
def opcodeAtTop (op : Byte) : State := running 0#8 0#8 0#8 0#8 0xFFFF#16 [(0xFFFF, op)]

/-- Every opcode of R95 can be fetched: the hypotheses of the statements about one opcode byte. The witnesses after it name
the opcodes of each of those statements. -/
theorem witness_opcode_statements :
    ∀ op ∈ definedOpcodes, (opcodeAtTop op).runState = .running ∧ (opcodeAtTop op).readByte (opcodeAtTop op).pc = op := by
  decide

theorem witness_LoadImmediateAndZeroPageRun : 0xA9#8 ∈ definedOpcodes ∧ 0xA5#8 ∈ definedOpcodes ∧ 0xB5#8 ∈ definedOpcodes := by decide
theorem witness_LoadAbsoluteRuns : 0xAD#8 ∈ definedOpcodes ∧ 0xBD#8 ∈ definedOpcodes ∧ 0xB9#8 ∈ definedOpcodes := by decide
theorem witness_LoadIndirectXRuns : (opcodeAtTop 0xA1#8).runState = .running ∧ (opcodeAtTop 0xA1#8).readByte (opcodeAtTop 0xA1#8).pc = 0xA1#8 := by decide
theorem witness_LoadIndirectYRuns : (opcodeAtTop 0xB1#8).runState = .running ∧ (opcodeAtTop 0xB1#8).readByte (opcodeAtTop 0xB1#8).pc = 0xB1#8 := by decide
theorem witness_StoreZeroPageRuns : 0x85#8 ∈ definedOpcodes ∧ 0x95#8 ∈ definedOpcodes := by decide
theorem witness_StoreAbsoluteRuns : 0x8D#8 ∈ definedOpcodes ∧ 0x9D#8 ∈ definedOpcodes ∧ 0x99#8 ∈ definedOpcodes := by decide
theorem witness_StoreIndirectRuns : 0x81#8 ∈ definedOpcodes ∧ 0x91#8 ∈ definedOpcodes := by decide
theorem witness_TransferRuns : taxAtTop.runState = .running ∧ taxAtTop.readByte taxAtTop.pc = 0xAA#8 := by decide
theorem witness_IncrementRuns : inxAtOrigin.runState = .running ∧ inxAtOrigin.readByte inxAtOrigin.pc = 0xE8#8 := by decide
theorem witness_BreakHaltsNormally : brkAtTop.runState = .running ∧ brkAtTop.readByte brkAtTop.pc = 0x00#8 := by decide

theorem witness_ResetSetsRegistersAndPc : State.powerOn.runState ≠ .running := by decide

theorem witness_NamedResetStateIsAResult :
    let s := { State.powerOn with mem := [(0xFFFC, 0x00#8), (0xFFFD, 0x80#8)] }
    s.runState ≠ .running ∧ s.readWord 0xFFFC#16 = 0x8000#16 := by decide

theorem witness_ResetIsIdempotent : ∃ t, hostReset State.powerOn = .next t := ⟨_, rfl⟩

/-- Programs at the two sides of the length limit. -/
theorem witness_LoadProgramWritesBytesAndVector :
    State.powerOn.runState ≠ .running ∧ (List.replicate 0x8000 0x00#8).length ≤ 0x8000 ∧
    0x8000 < (List.replicate 0x8001 0x00#8).length :=
  ⟨by decide, by rw [List.length_replicate], by rw [List.length_replicate]; decide⟩

theorem witness_RunStartsFromCurrentState :
    State.powerOn.BeforeFirstReset ∧ State.reset.runState ≠ .running ∧ ¬ State.reset.BeforeFirstReset :=
  ⟨rfl, by decide, by unfold State.BeforeFirstReset; decide⟩

theorem witness_HostHasNoMoveWhileRunning : taxAtTop.runState = .running := rfl

theorem witness_HostAccessorsReadAndWriteMemory : State.powerOn.runState ≠ .running := by decide

theorem witness_LoadAndRunStartsAtOrigin :
    State.powerOn.runState ≠ .running ∧ (List.replicate 0x8000 0x00#8).length ≤ 0x8000 :=
  ⟨by decide, by rw [List.length_replicate]⟩

/-- One state before any reset and one after, each with the longest program. -/
theorem witness_LoadAndRunWithoutResetKeepsRegisters :
    (State.powerOn.runState ≠ .running ∧ State.powerOn.BeforeFirstReset) ∧
    (State.reset.runState ≠ .running ∧ ¬ State.reset.BeforeFirstReset) ∧
    (List.replicate 0x8000 0x00#8).length ≤ 0x8000 :=
  ⟨⟨by decide, rfl⟩, ⟨by decide, fun h => by cases h⟩, by rw [List.length_replicate]⟩

/-- A running state that meets the invariant, and steps. -/
theorem witness_StepKeepsInvariant : staNextOpcode.Inv ∧ ∃ t, step staNextOpcode = .next t :=
  ⟨⟨by decide, fun _ _ h => (by cases h), fun _ _ h => (by cases h), fun _ => rfl, fun _ => .inl rfl⟩, _, rfl⟩

/-- A state halted by a decode failure. -/
def haltedByFailure : State := ⟨0#8, 0#8, 0#8, 0x80#8, 0x8001#16, [(0x8000, 0x02#8)], .haltedError 0x02#8 0x8000#16⟩

/-- It meets the invariant, and takes a host operation. -/
theorem witness_HostOperationKeepsInvariant : haltedByFailure.Inv ∧ ∃ t, hostApply .run haltedByFailure = .next t := by
  refine ⟨⟨by decide, ?_, ?_, fun _ => rfl, fun _ => .inr (.inr rfl)⟩, _, rfl⟩
  · intro op pcb h
    cases h
  · intro op at' h
    cases h
    decide

/-- Power-on is reachable, and so is the state after the first reset. -/
theorem witness_ReachableStatesAreNeverFaulted :
    Reachable State.powerOn ∧ Reachable State.powerOn.afterReset ∧ ¬ State.powerOn.afterReset.BeforeFirstReset :=
  ⟨.powerOn, .host .reset .powerOn rfl, fun h => by cases h⟩

theorem witness_RunHasOneEndOrHangs : ∃ t, Completes brkAtTop t :=
  ⟨loopState 1 brkAtTop, 1, rfl, by decide⟩

theorem witness_CompletedRunIsBreakOrDecodeFailure :
    (brkAtTop.runState = .running ∧ ∃ t, Completes brkAtTop t) ∧
    (undefinedAtTop.runState = .running ∧ ∃ t, Completes undefinedAtTop t) :=
  ⟨⟨rfl, loopState 1 brkAtTop, 1, rfl, by decide⟩, ⟨rfl, loopState 1 undefinedAtTop, 1, rfl, by decide⟩⟩

/-- Every address of a list, each holding `v`. -/
theorem find_map_same (v : Byte) {l : List Nat} {a : Nat} (h : a ∈ l) : Memory.find (l.map fun n => (n, v)) a = some v := by
  induction l with
  | nil => cases h
  | cons n l ih =>
    by_cases hn : n = a
    · simp [Memory.find, hn]
    · simpa [Memory.find, hn] using ih ((List.mem_cons.1 h).resolve_left (Ne.symm hn))

theorem witness_MemoryFullOfIncrementsHangs :
    ∃ s : State, s.runState = .running ∧ ∀ a, s.readByte a = 0xE8#8 :=
  ⟨running 0#8 0#8 0#8 0#8 0x8000#16 ((List.range 65536).map fun n => (n, 0xE8#8)), rfl, fun a => by
    have h := find_map_same 0xE8#8 (List.mem_range.2 a.isLt)
    simp [State.readByte, Memory.read, running, h]⟩

end Sys2Proof.Tests
end

/-! ## Proofs of 10_state.md: the flag unit, and which instructions run it (R27, R28) -/

namespace Sys2Proof.Machine

/-- What `update_flags` does (R25, R27), read off its bits. -/
theorem flagsFrom_updateFlags (r p : Byte) : FlagsFrom r p (updateFlags r p) := by
  refine ⟨?_, ?_, fun k hk1 hk7 => ?_⟩
  · rw [flagZ, updateFlags_getLsbD, if_pos rfl, decide_eq_true_eq]
  · rw [flagN, updateFlags_getLsbD, if_neg (by decide), if_pos rfl, bit7_iff]
  · rw [updateFlags_getLsbD, if_neg hk1, if_neg hk7]

/-- A step over bytes that decode runs the decoded instruction, then advances PC. -/
theorem exec_of_step {s t : State} {i : Instr} {rest : List Byte} (hd : decode s.fetchBytes = .ok (i, rest))
    (h : step s = .next t) :
    ∃ u, exec i s.atPcb = .next u ∧ t = u.setPc (s.pc + BitVec.ofNat 16 i.len) := by
  obtain ⟨u, hu⟩ := exec_next i s.atPcb
  rw [step_of_decode (step_cases h).1 hd hu] at h
  cases h
  exact ⟨u, hu, rfl⟩

/-- A step over an undefined opcode byte is a decode failure. -/
theorem decodeFailure_of_step {s t : State} (hl : lookup (s.readByte s.pc) = none) (h : step s = .next t) :
    t = s.atPcb.decodeFailure (s.readByte s.pc) := by
  rw [step_of_undefined (step_cases h).1 hl] at h
  cases h
  rfl

/-- The host's guard lets an operation through exactly when the engine is not Running (R245). -/
theorem State.hostMove_eq_next_iff {s t : State} {o : Host.Outcome State Fault Refusal} :
    s.hostMove o = .next t ↔ s.runState ≠ .running ∧ o = .next t := by
  cases hr : s.runState <;> simp [State.hostMove, hr]

/-- What a `reset()` that is not refused leaves (R240). -/
theorem afterReset_of_hostReset {s t : State} (h : hostReset s = .next t) : t = s.afterReset := by
  obtain ⟨-, hn⟩ := State.hostMove_eq_next_iff.1 h
  cases hn
  rfl

/-- P after a meaning: LDA sets the flags from the new A, TAX and INX from the new X, STA and BRK keep P (R28). -/
theorem exec_flags {i : Instr} {s u : State} (h : exec i s = .next u) :
    (i.mnemonic = .lda → FlagsFrom u.a s.p u.p) ∧ (i.mnemonic = .tax → FlagsFrom u.x s.p u.p) ∧
    (i.mnemonic = .inx → FlagsFrom u.x s.p u.p) ∧ (i.mnemonic = .sta → u.p = s.p) ∧
    (i.mnemonic = .brk → u.p = s.p) := by
  obtain ⟨hbrk, rfl⟩ | ⟨hlda, v, rfl⟩ | ⟨hsta, ea, rfl⟩ | ⟨htax | hinx, v, rfl⟩ := exec_cases h
  · simp [hbrk]
  · simp [hlda, flagsFrom_updateFlags]
  · simp [hsta]
  · simp [htax, flagsFrom_updateFlags]
  · simp [hinx, flagsFrom_updateFlags]

/-- Settles O19: every bit of the new P is given by `updateFlags_getLsbD`. -/
theorem updateFlagsWritesOnlyZAndN : Obligations.UpdateFlagsWritesOnlyZAndN :=
  flagsFrom_updateFlags

/-- Settles O14: a step's P is that of the meaning it runs, of the decode failure, or of `reset()`. -/
theorem flagsUpdatedOnlyByLoadTransferIncrement : Obligations.FlagsUpdatedOnlyByLoadTransferIncrement := by
  refine ⟨fun s t i rest hd h => ?_, fun s t hl h => ?_, fun s t h => ?_⟩
  · obtain ⟨u, hu, rfl⟩ := exec_of_step hd h
    simpa using exec_flags hu
  · rw [decodeFailure_of_step hl h, State.decodeFailure_p, State.atPcb_p]
  · rw [afterReset_of_hostReset h, State.afterReset_p]

end Sys2Proof.Machine

/-! ## Proofs of 20_memory.md: byte writes, word reads and the resolver's sums (R51, R52, R61 to R68) -/

namespace Sys2Proof.Machine

/-! Each address computation as arithmetic on `Nat`. -/

@[simp] theorem zext16_toNat (b : Byte) : (zext16 b).toNat = b.toNat :=
  BitVec.toNat_setWidth_of_le (by decide)

@[simp] theorem eaZeroPage_toNat (zp : Byte) : (eaZeroPage zp).toNat = zp.toNat :=
  zext16_toNat zp

/-- A page-zero index wraps inside page zero (R63, R64). -/
@[simp] theorem eaZeroPageIndexed_toNat (zp index : Byte) :
    (eaZeroPageIndexed zp index).toNat = (zp.toNat + index.toNat) % 256 := by
  rw [eaZeroPageIndexed, zext16_toNat, BitVec.toNat_add]

/-- A word read is little-endian, its second address wrapping at the top of memory (R52). -/
@[simp] theorem Memory.readWord_toNat (m : Memory) (a : Addr) :
    (m.readWord a).toNat = (m.read a).toNat + 256 * (m.read (a + 1#16)).toNat :=
  wordOf_toNat _ _

/-- An absolute index wraps at the top of memory (R66, R67). -/
@[simp] theorem eaAbsoluteIndexed_toNat (addr16 : Addr) (index : Byte) :
    (eaAbsoluteIndexed addr16 index).toNat = (addr16.toNat + index.toNat) % 65536 := by
  rw [eaAbsoluteIndexed, BitVec.toNat_add, zext16_toNat]

/-- The word behind a page-zero pointer is little-endian, both its bytes in page zero (R68). -/
theorem zeroPagePointer_toNat (m : Memory) (ptr : Byte) :
    (zeroPagePointer m ptr).toNat = (m.read (zext16 ptr)).toNat + 256 * (m.read (zext16 (ptr + 1#8))).toNat :=
  wordOf_toNat _ _

/-- Settles O20: `storedByte_writeByte` gives the bytes, the field lemmas the registers and the run state. -/
theorem byteWriteChangesOnlyThatByte : Obligations.ByteWriteChangesOnlyThatByte := fun s a v =>
  ⟨s.storedByte_writeByte a v, s.writeByte_a a v, s.writeByte_x a v, s.writeByte_y a v, s.writeByte_p a v,
    s.writeByte_pc a v, s.writeByte_runState a v⟩

/-- Settles O25: the operand word is a word read at pc, to which the index is added. -/
theorem resolverComputesAbsoluteModes : Obligations.ResolverComputesAbsoluteModes := by
  refine fun m pc x y => ⟨⟨_, rfl, ?_⟩, ⟨_, rfl, ?_⟩, ⟨_, rfl, ?_⟩⟩
  · exact m.readWord_toNat pc
  · rw [eaAbsoluteIndexed_toNat, Memory.readWord_toNat]
  · rw [eaAbsoluteIndexed_toNat, Memory.readWord_toNat]

/-- Settles O26: the indexed base is the pointer, and both it and its successor are bytes widened to page zero. -/
theorem resolverComputesIndirectX : Obligations.ResolverComputesIndirectX := by
  intro m pc x y
  refine ⟨_, zext16 (m.read pc + x), zext16 (m.read pc + x + 1#8), rfl, ?_, ?_, zeroPagePointer_toNat m _⟩
  · rw [zext16_toNat, BitVec.toNat_add]
  · rw [zext16_toNat, zext16_toNat, BitVec.toNat_add, BitVec.toNat_ofNat]

/-- Settles O21: at 0xFFFF the address of the high byte computes to 0x0000. -/
theorem wordReadIsLittleEndian : Obligations.WordReadIsLittleEndian := fun s a =>
  ⟨s.mem.readWord_toNat a, s.mem.readWord_toNat 0xFFFF#16⟩

/-- Settles O24: the page-zero addresses are the operand byte, alone or with its index, widened. -/
theorem resolverComputesPageZeroModes : Obligations.ResolverComputesPageZeroModes := fun m pc x y =>
  ⟨rfl, ⟨_, rfl, eaZeroPage_toNat (m.read pc)⟩, ⟨_, rfl, eaZeroPageIndexed_toNat (m.read pc) x⟩,
    ⟨_, rfl, eaZeroPageIndexed_toNat (m.read pc) y⟩⟩

end Sys2Proof.Machine

/-! ## Proofs of 30_encoding.md: undefined bytes, and the step as R107 writes it (R97, R100 to R107) -/

namespace Sys2Proof

/-- Decoding names the opcode byte as undefined exactly when the table has no row for it (R96, R97). -/
theorem decode_eq_undefinedOpcode_iff (op : Byte) (rest : List Byte) :
    decode (op :: rest) = .error (.undefinedOpcode op) ↔ lookup op = none := by
  cases hl : lookup op with
  | none => simp [decode, hl]
  | some r => cases ha : assemble r.mnemonic r.mode rest <;> simp [decode, hl, ha]

/-- A row of the table has the length of its mode's format (R90 to R93). -/
theorem len_of_lookup {op : Byte} {r : Row} (h : lookup op = some r) : r.len = r.mode.format.len := by
  have hwf := opcodeTable_wellFormed r (lookup_some h).1
  simp only [Row.wellFormed, Bool.and_eq_true, Row.formatOfMode, Row.lengthOfFormat, beq_iff_eq] at hwf
  obtain ⟨⟨-, hformat⟩, hlen⟩ := hwf
  rw [hlen, hformat]

end Sys2Proof

namespace Sys2Proof.Machine

/-- An LDA assembled from the bytes at PC loads from the address the resolver finds there: in each mode, resolver and
meaning read the same operand bytes (R75). -/
theorem exec_of_assemble_lda {mode : Mode} {s : State} {i : Instr} {rest : List Byte}
    (h : assemble .lda mode [s.readByte s.pc, s.readByte (s.pc + 1#16)] = some (i, rest)) :
    ∃ ea, resolve mode s.mem s.pc s.x s.y = some ea ∧ exec i s = .next (s.loadFrom ea) := by
  cases mode <;> cases h <;> exact ⟨_, rfl, rfl⟩

/-- A STA assembled from the bytes at PC stores to the address the resolver finds there (R75). -/
theorem exec_of_assemble_sta {mode : Mode} {s : State} {i : Instr} {rest : List Byte}
    (h : assemble .sta mode [s.readByte s.pc, s.readByte (s.pc + 1#16)] = some (i, rest)) :
    ∃ ea, resolve mode s.mem s.pc s.x s.y = some ea ∧ exec i s = .next (s.storeTo ea) := by
  cases mode <;> cases h <;> exact ⟨_, rfl, rfl⟩

/-- A row's handler does what the meaning of the instruction assembled from the bytes at PC does, and never raises: LDA
and STA by the address the resolver finds, the others, which assemble in mode NoneAddressing only, by themselves (R103). -/
theorem runHandler_of_assemble {r : Row} {op : Byte} {s : State} {i : Instr} {rest : List Byte}
    (h : assemble r.mnemonic r.mode [s.readByte s.pc, s.readByte (s.pc + 1#16)] = some (i, rest)) :
    ∃ u, exec i s = .next u ∧ runHandler r op s = .done u := by
  obtain ⟨opcode, mnemonic, len, format, mode⟩ := r
  cases mnemonic with
  | lda =>
    obtain ⟨ea, hea, hexec⟩ := exec_of_assemble_lda h
    exact ⟨_, hexec, by simp only [runHandler, hea]⟩
  | sta =>
    obtain ⟨ea, hea, hexec⟩ := exec_of_assemble_sta h
    exact ⟨_, hexec, by simp only [runHandler, hea]⟩
  | brk => cases mode <;> cases h; exact ⟨_, rfl, rfl⟩
  | tax => cases mode <;> cases h; exact ⟨_, rfl, rfl⟩
  | inx => cases mode <;> cases h; exact ⟨_, rfl, rfl⟩

/-- The same for the row and the instruction a fetch finds, with PC moved on to pcb. -/
theorem runHandler_of_decode {s : State} {r : Row} {i : Instr} {rest : List Byte}
    (hl : lookup (s.readByte s.pc) = some r) (hd : decode s.fetchBytes = .ok (i, rest)) :
    ∃ u, exec i s.atPcb = .next u ∧ runHandler r (s.readByte s.pc) s.atPcb = .done u := by
  obtain ⟨r', hl', ha⟩ := decode_ok_row hd
  obtain rfl : r = r' := Option.some.inj (hl.symm.trans hl')
  have hpc : s.pc + 2#16 = s.atPcb.pc + 1#16 := by simp [BitVec.add_assoc]
  rw [hpc] at ha
  exact runHandler_of_assemble ha

theorem State.advance_of_unmoved {s : State} {pcb : Addr} (len : Nat) (h : s.pc = pcb) :
    s.advance pcb len = s.setPc (pcb + BitVec.ofNat 16 (len - 1)) :=
  if_pos h

/-- The pseudocode step where the table has no row (R102). -/
theorem engineStep_of_no_row {table : Byte → Option Row} {s : State} (hl : table (s.readByte s.pc) = none) :
    engineStep table s = s.atPcb.decodeFailure (s.readByte s.pc) := by
  simp only [engineStep, hl, State.atPcb]

/-- The pseudocode step where the row's handler ends normally (R103 to R105). -/
theorem engineStep_of_row {table : Byte → Option Row} {s u : State} {r : Row} (hl : table (s.readByte s.pc) = some r)
    (hu : runHandler r (s.readByte s.pc) s.atPcb = .done u) :
    engineStep table s = u.advance s.atPcb.pc r.len := by
  rw [State.atPcb] at hu
  simp only [engineStep, hl, hu, State.atPcb]

/-- Settles O4: the bytes without a table row are those outside the 18, and for these decoder and step both fail. -/
theorem undefinedBytesAreDecodeFailures : Obligations.UndefinedBytesAreDecodeFailures := by
  refine ⟨by decide, by decide, fun op rest => ?_, fun s hs hop => ?_⟩
  · rw [decode_eq_undefinedOpcode_iff, lookup_none_iff_not_defined]
  · refine ⟨_, step_of_undefined hs (lookup_none_iff_not_defined.2 hop), ?_⟩
    rw [State.decodeFailure_runState, State.atPcb_pc, BitVec.add_sub_cancel]

/-- Settles O8: without a row both forms are the decode failure; with one, handler and meaning leave the same state, and
the row's length is the instruction's, so that PC advances alike. -/
theorem stepIsPseudocodeStep : Obligations.StepIsPseudocodeStep := by
  intro s hs
  obtain ⟨hl, -⟩ | ⟨r, i, rest, hl, hd, -, hmode⟩ := fetch_cases s
  · rw [step_of_undefined hs hl, engineStep_of_no_row hl]
  · obtain ⟨u, hexec, hhandler⟩ := runHandler_of_decode hl hd
    have hlen : r.len = i.len := by rw [len_of_lookup hl, Instr.len, hmode]
    rw [step_of_decode hs hd hexec, engineStep_of_row hl hhandler, State.advance_of_unmoved _ (exec_pc hexec), hlen,
      State.atPcb_pc, pc_after]

/-- Settles O9: a stopped engine has no step by `step_cases`, and a running one always has the pseudocode step. -/
theorem engineStepsExactlyWhenRunning : Obligations.EngineStepsExactlyWhenRunning := fun s =>
  ⟨fun ⟨_, h⟩ => (step_cases h).1, fun hs => ⟨_, stepIsPseudocodeStep s hs⟩⟩

end Sys2Proof.Machine

/-! ## Proofs of 40_load.md: the steps on the LDA opcodes, from memory (R130 to R137) -/

namespace Sys2Proof.Machine

/-- A running step where the opcode's row has a handler that ends normally: the handler's state, with PC moved past the
row's bytes (R103 to R105). -/
theorem step_of_row {s u : State} {r : Row} (hs : s.runState = .running) (hl : lookup (s.readByte s.pc) = some r)
    (hu : runHandler r (s.readByte s.pc) s.atPcb = .done u) :
    step s = .next (u.setPc (s.pc + BitVec.ofNat 16 r.len)) := by
  obtain ⟨hnone, -⟩ | ⟨r', i, rest, hl', hd, -, hmode⟩ := fetch_cases s
  · cases hl.symm.trans hnone
  · obtain rfl : r = r' := Option.some.inj (hl.symm.trans hl')
    obtain ⟨u', hexec, hu'⟩ := runHandler_of_decode hl hd
    obtain rfl : u = u' := HandlerEnd.done.inj (hu.symm.trans hu')
    rw [step_of_decode hs hd hexec, len_of_lookup hl, Instr.len, hmode]

/-- Loading A has the effect and the frame of R130. -/
theorem loadEffect_loadAccumulator (s : State) (v : Byte) : LoadEffect v s (s.loadAccumulator v) :=
  ⟨s.loadAccumulator_a v, flagsFrom_updateFlags v s.p, s.loadAccumulator_x v, s.loadAccumulator_y v,
    State.readByte_of_mem_eq (s.loadAccumulator_mem v), s.loadAccumulator_runState v⟩

/-- A load's effect says nothing of PC, so moving PC before and after the load keeps it. -/
theorem LoadEffect.setPc {v : Byte} {s t : State} {pc : Addr} (h : LoadEffect v (s.setPc pc) t) (target : Addr) :
    LoadEffect v s (t.setPc target) :=
  h

/-- An opcode whose row is an LDA loads from the address the resolver finds at pcb, and PC moves on by the row's length. -/
theorem opcodeLoads_of_lookup {op : Byte} {len : Nat} {format : Format} {mode : Mode} {ea : State → Addr}
    (hl : lookup op = some ⟨op, .lda, len, format, mode⟩)
    (hea : ∀ s : State, resolve mode s.mem (s.pc + 1#16) s.x s.y = some (ea s)) : OpcodeLoads op len ea := by
  intro s hs hop
  have hhandler : runHandler ⟨op, .lda, len, format, mode⟩ (s.readByte s.pc) s.atPcb =
      .done (s.atPcb.loadFrom (ea s)) := by
    simp [runHandler, hea]
  refine ⟨_, step_of_row hs (hop ▸ hl) hhandler, ?_, State.setPc_pc _ _⟩
  exact (loadEffect_loadAccumulator s.atPcb (s.readByte (ea s))).setPc _

/-- The word the resolver reads at pcb is the operand word. -/
theorem State.readWord_pcb (s : State) : s.mem.readWord (s.pc + 1#16) = s.operandWord :=
  s.readWord_after_opcode

/-- Settles O34: these modes compute their address from PC or from the byte at pcb, the operand byte. -/
theorem loadImmediateAndZeroPageRun : Obligations.LoadImmediateAndZeroPageRun :=
  ⟨opcodeLoads_of_lookup rfl fun _ => rfl, opcodeLoads_of_lookup rfl fun _ => rfl,
    opcodeLoads_of_lookup rfl fun _ => rfl⟩

/-- Settles O35: these modes compute their address from the word at pcb, the operand word. -/
theorem loadAbsoluteRuns : Obligations.LoadAbsoluteRuns := by
  refine ⟨opcodeLoads_of_lookup rfl fun s => ?absolute, opcodeLoads_of_lookup rfl fun s => ?absoluteX,
    opcodeLoads_of_lookup rfl fun s => ?absoluteY⟩
  case absolute => rw [resolve, State.readWord_pcb, eaAbsolute]
  case absoluteX => rw [resolve, State.readWord_pcb, eaAbsoluteIndexed, zext16]
  case absoluteY => rw [resolve, State.readWord_pcb, eaAbsoluteIndexed, zext16]

/-- Settles O36: the resolver's pointer is the operand byte +8 X, and both its bytes are read in page zero. -/
theorem loadIndirectXRuns : Obligations.LoadIndirectXRuns :=
  opcodeLoads_of_lookup rfl fun _ => rfl

end Sys2Proof.Machine

/-! ## Proofs of 42_transfer_increment.md: the steps on the TAX and INX opcodes (R170, R171) -/

namespace Sys2Proof.Machine

/-- Writing X has the effect and the frame of R170 and R171. -/
theorem indexEffect_loadX (s : State) (v : Byte) : IndexEffect v s (s.loadX v) :=
  ⟨s.loadX_x v, flagsFrom_updateFlags v s.p, s.loadX_a v, s.loadX_y v,
    State.readByte_of_mem_eq (s.loadX_mem v), s.loadX_runState v⟩

/-- The effect of a write to X says nothing of PC, so moving PC before and after the write keeps it. -/
theorem IndexEffect.setPc {v : Byte} {s t : State} {pc : Addr} (h : IndexEffect v (s.setPc pc) t) (target : Addr) :
    IndexEffect v s (t.setPc target) :=
  h

/-- A running step over a one-byte row whose handler writes `v` to X. -/
theorem step_of_row_loadX {s : State} {r : Row} {v : Byte} (hs : s.runState = .running)
    (hl : lookup (s.readByte s.pc) = some r) (hlen : r.len = 1)
    (hu : runHandler r (s.readByte s.pc) s.atPcb = .done (s.atPcb.loadX v)) :
    ∃ t, step s = .next t ∧ IndexEffect v s t ∧ t.pc = s.pc + 1#16 := by
  have hstep := step_of_row hs hl hu
  rw [hlen] at hstep
  exact ⟨_, hstep, (indexEffect_loadX s.atPcb v).setPc _, State.setPc_pc _ _⟩

/-- Settles O41: the row of 0xAA is TAX, whose handler writes A to X. -/
theorem transferRuns : Obligations.TransferRuns := by
  intro s hs hop
  have hl : lookup (s.readByte s.pc) = some ⟨0xAA#8, .tax, 1, .implied, .noneAddressing⟩ := by rw [hop]; rfl
  exact step_of_row_loadX hs hl rfl rfl

/-- Settles O42: the row of 0xE8 is INX, whose handler writes `X +8 1` to X, a sum modulo 256. -/
theorem incrementRuns : Obligations.IncrementRuns := by
  intro s hs hop
  have hl : lookup (s.readByte s.pc) = some ⟨0xE8#8, .inx, 1, .implied, .noneAddressing⟩ := by rw [hop]; rfl
  obtain ⟨t, hstep, heffect, hpc⟩ := step_of_row_loadX (v := s.x + 1#8) hs hl rfl rfl
  exact ⟨t, _, hstep, heffect, BitVec.toNat_add s.x 1#8, hpc⟩

end Sys2Proof.Machine

/-! ## Proofs of 30_encoding.md: the encoder and the decoder are inverse (R90 to R98) -/

namespace Sys2Proof

/-- The row of an instruction's opcode byte (R95), whichever the instruction. -/
theorem rowOfTable : ∀ i : Instr, Laws.RowOfTable.Statement i
  | .brk => Laws.RowOfTable.brk
  | .tax => Laws.RowOfTable.tax
  | .inx => Laws.RowOfTable.inx
  | .ldaImmediate v => Laws.RowOfTable.ldaImmediate v
  | .ldaZeroPage v => Laws.RowOfTable.ldaZeroPage v
  | .ldaZeroPageX v => Laws.RowOfTable.ldaZeroPageX v
  | .ldaAbsolute v => Laws.RowOfTable.ldaAbsolute v
  | .ldaAbsoluteX v => Laws.RowOfTable.ldaAbsoluteX v
  | .ldaAbsoluteY v => Laws.RowOfTable.ldaAbsoluteY v
  | .ldaIndirectX v => Laws.RowOfTable.ldaIndirectX v
  | .ldaIndirectY v => Laws.RowOfTable.ldaIndirectY v
  | .staZeroPage v => Laws.RowOfTable.staZeroPage v
  | .staZeroPageX v => Laws.RowOfTable.staZeroPageX v
  | .staAbsolute v => Laws.RowOfTable.staAbsolute v
  | .staAbsoluteX v => Laws.RowOfTable.staAbsoluteX v
  | .staAbsoluteY v => Laws.RowOfTable.staAbsoluteY v
  | .staIndirectX v => Laws.RowOfTable.staIndirectX v
  | .staIndirectY v => Laws.RowOfTable.staIndirectY v

/-- Handler and mode fix the row (R95). -/
theorem row_eq_of_mnemonic_of_mode : ∀ r ∈ opcodeTable, ∀ r' ∈ opcodeTable,
    r.mnemonic = r'.mnemonic → r.mode = r'.mode → r = r' := by
  decide

/-- An instruction is assembled from its own operand bytes, whatever follows them (R91 to R94). -/
theorem assemble_operands (i : Instr) (rest : List Byte) :
    assemble i.mnemonic i.mode ((encode i).tail ++ rest) = some (i, rest) := by
  cases i with
  | ldaAbsolute w | ldaAbsoluteX w | ldaAbsoluteY w | staAbsolute w | staAbsoluteX w | staAbsoluteY w =>
    simp [assemble, encode, Instr.mnemonic, Instr.mode, Machine.wordOf_low_high]
  | _ => rfl

/-- What is assembled from bytes has them as its operand bytes, and leaves the rest. -/
theorem operands_of_assemble {mn : Mnemonic} {mode : Mode} {bytes rest : List Byte} {i : Instr}
    (h : assemble mn mode bytes = some (i, rest)) : bytes = (encode i).tail ++ rest := by
  unfold assemble at h
  split at h <;> cases h <;> simp [encode]

/-- Settles O1: the opcode byte finds the instruction's row, and the row's handler and mode assemble the operands. -/
theorem decodeOfEncodeGivesInstructionBack : Obligations.DecodeOfEncodeGivesInstructionBack := by
  intro i rest
  obtain ⟨op, operands, r, hencode, hlookup, hmnemonic, hmode, -⟩ := rowOfTable i
  have hassemble : assemble r.mnemonic r.mode (operands ++ rest) = some (i, rest) := by
    rw [hmnemonic, hmode, ← assemble_operands i rest, hencode, List.tail_cons]
  rw [hencode, List.cons_append]
  simp only [decode, hlookup, hassemble]

/-- Settles O2: the operand bytes are those of `operands_of_assemble`, and the opcode byte is that of the one row with the
instruction's handler and mode. -/
theorem encodeOfDecodeGivesBytesBack : Obligations.EncodeOfDecodeGivesBytesBack := by
  intro bytes i rest h
  cases bytes with
  | nil => cases h
  | cons op bytes =>
    obtain ⟨r, hlookup, hassemble⟩ := decode_ok_row h
    obtain ⟨hmnemonic, hmode⟩ := assemble_shape hassemble
    obtain ⟨op', operands, r', hencode, hlookup', hmnemonic', hmode', -⟩ := rowOfTable i
    obtain ⟨hmem, hop⟩ := lookup_some hlookup
    obtain ⟨hmem', hop'⟩ := lookup_some hlookup'
    obtain rfl : r = r' := row_eq_of_mnemonic_of_mode r hmem r' hmem' (hmnemonic ▸ hmnemonic'.symm)
      (hmode ▸ hmode'.symm)
    rw [operands_of_assemble hassemble, hencode, List.tail_cons, List.cons_append, ← hop, hop']

theorem Instr.len_eq_one_or_two_or_three (i : Instr) : i.len = 1 ∨ i.len = 2 ∨ i.len = 3 := by
  rw [Instr.len]
  cases i.mode.format <;> simp [Format.len]

/-- Settles O3: one opcode byte has one row, and the bytes taken are the encoding. -/
theorem opcodeByteFixesLength : Obligations.OpcodeByteFixesLength := by
  intro op bytes bytes' rest rest' i i' h h'
  obtain ⟨r, hlookup, hassemble⟩ := decode_ok_row h
  obtain ⟨r', hlookup', hassemble'⟩ := decode_ok_row h'
  obtain rfl : r = r' := Option.some.inj (hlookup.symm.trans hlookup')
  obtain ⟨hmnemonic, hmode⟩ := assemble_shape hassemble
  obtain ⟨hmnemonic', hmode'⟩ := assemble_shape hassemble'
  have hsplit := congrArg List.length (encodeOfDecodeGivesBytesBack _ _ _ h)
  rw [List.length_cons, List.length_append, length_encode] at hsplit
  exact ⟨by rw [Instr.len, Instr.len, hmode, hmode'], hmnemonic.trans hmnemonic'.symm, hmode.trans hmode'.symm,
    i.len_eq_one_or_two_or_three, hsplit.trans (Nat.add_comm _ _)⟩

/-- Settles O5: each word is the encoding of what it decodes to, and 0x89 is in no row. -/
theorem specWordsDecode : Obligations.SpecWordsDecode :=
  ⟨decodeOfEncodeGivesInstructionBack .brk [], decodeOfEncodeGivesInstructionBack .tax [],
    decodeOfEncodeGivesInstructionBack .inx [], decodeOfEncodeGivesInstructionBack (.ldaImmediate 0xC0#8) [],
    decodeOfEncodeGivesInstructionBack (.ldaAbsoluteX 0x1232#16) [],
    decodeOfEncodeGivesInstructionBack (.ldaIndirectX 0x1E#8) [],
    decodeOfEncodeGivesInstructionBack (.staAbsolute 0x8007#16) [],
    decodeOfEncodeGivesInstructionBack (.staIndirectY 0x20#8) [], (decode_eq_undefinedOpcode_iff _ _).2 rfl⟩

end Sys2Proof

/-! ## Proofs of 30_encoding.md section 3 and 10_state.md: what a step changes (R21 to R34, R56, R101 to R105) -/

namespace Sys2Proof.Machine

/-- Settles O6: no meaning moves PC, so the advance of `step_of_decode` is always the skip of the operand bytes. -/
theorem stepRunsDecodedInstruction : Obligations.StepRunsDecodedInstruction := by
  intro s i rest hs hd
  obtain ⟨u, hu⟩ := exec_next i s.atPcb
  refine ⟨u, hu, ?_⟩
  have hpc : u.pc = s.pc + 1#16 := exec_pc hu
  rw [step_of_decode hs hd hu, if_pos hpc, pc_after]

/-- The fetched bytes by their distance from PC. -/
theorem State.fetchBytes_getElem? (s : State) {k : Nat} (hk : k < 3) :
    s.fetchBytes[k]? = some (s.readByte (s.pc + BitVec.ofNat 16 k)) := by
  interval_cases k <;> simp [State.fetchBytes]

/-- An instruction whose encoding stands at PC is the one the fetch decodes. -/
theorem decode_fetchBytes_of_holdsAtPc {s : State} {i : Instr} (h : s.holdsAtPc i) :
    ∃ rest, decode s.fetchBytes = .ok (i, rest) := by
  have hprefix : encode i <+: s.fetchBytes := by
    refine List.prefix_iff_getElem?.2 fun k hk => ?_
    have hk3 : k < 3 := by
      have := i.len_eq_one_or_two_or_three
      rw [length_encode] at hk
      omega
    rw [State.fetchBytes_getElem? s hk3, h k _ (List.getElem?_eq_getElem hk)]
  obtain ⟨rest, hrest⟩ := hprefix
  exact ⟨rest, hrest ▸ decodeOfEncodeGivesInstructionBack i rest⟩

/-- Settles O7: the instruction at PC is the one decoded, and its encoding has its length. -/
theorem encodedBytesAtPcRun : Obligations.EncodedBytesAtPcRun := by
  intro s i hs hi
  obtain ⟨rest, hd⟩ := decode_fetchBytes_of_holdsAtPc hi
  obtain ⟨u, hu⟩ := exec_next i s.atPcb
  exact ⟨u, hu, length_encode i ▸ step_of_decode hs hd hu⟩

/-- Settles O11: the last thing a step over bytes that decode does is to set PC. -/
theorem pcAdvancesByEncodedLength : Obligations.PcAdvancesByEncodedLength := by
  intro s t i rest hd h
  obtain ⟨u, -, rfl⟩ := exec_of_step hd h
  exact u.setPc_pc _

/-- The opcode byte 0x00 is BRK's alone (R95). -/
theorem head_encode_eq_zero_iff (i : Instr) : (encode i).head? = some 0x00#8 ↔ i.mnemonic = .brk := by
  cases i <;> simp [encode, Instr.mnemonic]

/-- A fetch that decodes finds a defined opcode byte, which is 0x00 exactly for BRK. -/
theorem opcode_of_decode {s : State} {i : Instr} {rest : List Byte} (hd : decode s.fetchBytes = .ok (i, rest)) :
    s.readByte s.pc ∈ definedOpcodes ∧ (s.readByte s.pc = 0x00#8 ↔ i.mnemonic = .brk) := by
  obtain ⟨r, hr, -⟩ := decode_ok_row hd
  refine ⟨by_contra fun hop => ?_, ?_⟩
  · rw [lookup_none_iff_not_defined.2 hop] at hr
    cases hr
  · have hbytes := encodeOfDecodeGivesBytesBack _ _ _ hd
    have hne : encode i ≠ [] := List.ne_nil_of_length_pos (length_encode i ▸ Instr.one_le_len i)
    have hhead := congrArg List.head? hbytes
    rw [List.head?_append_of_ne_nil _ hne] at hhead
    rw [← head_encode_eq_zero_iff, ← hhead]
    simp [State.fetchBytes]

/-- BRK ends the run; every other meaning keeps run_state. -/
theorem exec_runState {i : Instr} {s u : State} (h : exec i s = .next u) :
    (i.mnemonic = .brk ∧ u.runState = .haltedNormal) ∨ (i.mnemonic ≠ .brk ∧ u.runState = s.runState) := by
  obtain ⟨hbrk, rfl⟩ | ⟨hlda, v, rfl⟩ | ⟨hsta, ea, rfl⟩ | ⟨htax | hinx, v, rfl⟩ := exec_cases h
  · exact .inl ⟨hbrk, rfl⟩
  · exact .inr ⟨by simp [hlda], rfl⟩
  · exact .inr ⟨by simp [hsta], rfl⟩
  · exact .inr ⟨by simp [htax], rfl⟩
  · exact .inr ⟨by simp [hinx], rfl⟩

/-- The three ways a step leaves run_state: a decode failure, a BRK, or on running (R100 to R105, R180). -/
theorem step_runState_cases {s t : State} (h : step s = .next t) :
    (s.readByte s.pc ∉ definedOpcodes ∧ t.runState = .haltedError (s.readByte s.pc) s.pc ∧ t.pc = s.pc + 1#16) ∨
    (s.readByte s.pc = 0x00#8 ∧ t.runState = .haltedNormal) ∨
    (s.readByte s.pc ∈ definedOpcodes ∧ s.readByte s.pc ≠ 0x00#8 ∧ t.runState = .running) := by
  obtain ⟨hs, ⟨hl, rfl⟩ | ⟨i, rest, u, hd, hu, rfl⟩⟩ := step_cases h
  · refine .inl ⟨lookup_none_iff_not_defined.1 hl, ?_, rfl⟩
    rw [State.decodeFailure_runState, State.atPcb_pc, BitVec.add_sub_cancel]
  · obtain ⟨hdefined, hzero⟩ := opcode_of_decode hd
    obtain ⟨hbrk, hrun⟩ | ⟨hbrk, hrun⟩ := exec_runState hu
    · exact .inr (.inl ⟨hzero.2 hbrk, hrun⟩)
    · exact .inr (.inr ⟨hdefined, mt hzero.1 hbrk, hrun.trans hs⟩)

/-- Settles O12: the three ways exclude each other by the opcode byte, and none is Idle or Faulted. -/
theorem runningEndsOnlyByBrkOrUndefinedByte : Obligations.RunningEndsOnlyByBrkOrUndefinedByte := by
  intro s t h
  have hbrk : (0x00#8 : Byte) ∈ definedOpcodes := by decide
  obtain ⟨hop, ht, -⟩ | ⟨hop, ht⟩ | ⟨hop, hne, ht⟩ := step_runState_cases h
  · have hne : s.readByte s.pc ≠ 0x00#8 := fun he => hop (he ▸ hbrk)
    simp [ht, hop, hne]
  · simp [ht, hop, hbrk]
  · simp [ht, hop, hne]

/-- Settles O13: the four shapes of a meaning write A, X, no register, or X. -/
theorem registersWrittenOnlyByTheirInstructions : Obligations.RegistersWrittenOnlyByTheirInstructions := by
  intro s t i rest hd h
  obtain ⟨u, hu, rfl⟩ := exec_of_step hd h
  obtain ⟨-, rfl⟩ | ⟨hlda, v, rfl⟩ | ⟨-, ea, rfl⟩ | ⟨htax | hinx, v, rfl⟩ := exec_cases hu
  · exact ⟨fun _ => rfl, fun _ _ => rfl, rfl⟩
  · exact ⟨fun hn => absurd hlda hn, fun _ _ => rfl, rfl⟩
  · exact ⟨fun _ => rfl, fun _ _ => rfl, rfl⟩
  · exact ⟨fun _ => rfl, fun hn _ => absurd htax hn, rfl⟩
  · exact ⟨fun _ => rfl, fun _ hn => absurd hinx hn, rfl⟩

/-- A step keeps Y, writes at most one byte of memory, and leaves P alone or gives it to the flag unit. -/
theorem step_writes {s t : State} (h : step s = .next t) :
    t.y = s.y ∧ (t.mem = s.mem ∨ ∃ ea : Addr, t.mem = s.mem.write ea.toNat s.a) ∧
    (t.p = s.p ∨ ∃ r, t.p = updateFlags r s.p) := by
  obtain ⟨-, ⟨-, rfl⟩ | ⟨i, rest, u, -, hu, rfl⟩⟩ := step_cases h
  · exact ⟨rfl, .inl rfl, .inl rfl⟩
  · obtain ⟨-, rfl⟩ | ⟨-, v, rfl⟩ | ⟨-, ea, rfl⟩ | ⟨-, v, rfl⟩ := exec_cases hu
    · exact ⟨rfl, .inl rfl, .inl rfl⟩
    · exact ⟨rfl, .inl rfl, .inr ⟨v, rfl⟩⟩
    · exact ⟨rfl, .inr ⟨ea, rfl⟩, .inl rfl⟩
    · exact ⟨rfl, .inl rfl, .inr ⟨v, rfl⟩⟩

/-- Settles O15: the flag unit is all that writes P, and it keeps the reserved bits. -/
theorem reservedStatusBitsAreKept : Obligations.ReservedStatusBitsAreKept := by
  intro s t h k hk1 hk7
  obtain ⟨-, -, hp | ⟨r, hp⟩⟩ := step_writes h
  · rw [hp]
  · rw [hp, updateFlags_getLsbD, if_neg hk1, if_neg hk7]

theorem SameButFlags.setPc {s t : State} (h : SameButFlags s t) (target : Addr) :
    SameButFlags (s.setPc target) (t.setPc target) := by
  obtain ⟨ha, hx, hy, -, hmem, hrun⟩ := h
  exact ⟨ha, hx, hy, rfl, hmem, hrun⟩

/-- No meaning reads a flag: run in two states that differ in P at most, it leaves two such states. -/
theorem exec_of_sameButFlags {i : Instr} {s t u : State} (h : SameButFlags s t) (hu : exec i s = .next u) :
    ∃ v, exec i t = .next v ∧ SameButFlags u v := by
  obtain ⟨a, x, y, p, pc, mem, run⟩ := s
  obtain ⟨a', x', y', p', pc', mem', run'⟩ := t
  obtain ⟨rfl, rfl, rfl, rfl, rfl, rfl⟩ := h
  cases i <;> cases hu <;> exact ⟨_, rfl, rfl, rfl, rfl, rfl, rfl, rfl⟩

/-- Settles O16: both states fetch the same bytes, so both fail to decode or both run the one instruction. -/
theorem flagsNeverInfluenceAnythingElse : Obligations.FlagsNeverInfluenceAnythingElse := by
  intro s t s' hst h
  have ⟨ha, hx, hy, hpc, hmem, hrun⟩ := hst
  have hread : ∀ b, t.readByte b = s.readByte b := State.readByte_of_mem_eq hmem
  obtain ⟨hs, ⟨hl, rfl⟩ | ⟨i, rest, u, hd, hu, rfl⟩⟩ := step_cases h
  · refine ⟨_, step_of_undefined (hrun.trans hs) (by rwa [hread, hpc]), ha, hx, hy, ?_, hmem, ?_⟩
    · simp [hpc]
    · simp [hread, hpc]
  · have hfetch : t.fetchBytes = s.fetchBytes := by simp only [State.fetchBytes, hread, hpc]
    have hpcb : SameButFlags s.atPcb t.atPcb := by
      rw [State.atPcb, State.atPcb, hpc]
      exact SameButFlags.setPc hst _
    obtain ⟨v, hv, huv⟩ := exec_of_sameButFlags hpcb hu
    exact ⟨_, step_of_decode (hrun.trans hs) (hfetch ▸ hd) hv, hpc ▸ huv.setPc _⟩

/-- Settles O17: of the four shapes of a meaning only a STA's writes memory, and a decode failure writes none. -/
theorem memoryWrittenOnlyByStores : Obligations.MemoryWrittenOnlyByStores := by
  refine fun s t h => ⟨fun i rest hd hsta => ?_, fun hl => ?_⟩
  · obtain ⟨u, hu, rfl⟩ := exec_of_step hd h
    refine State.readByte_of_mem_eq ?_
    obtain ⟨-, rfl⟩ | ⟨-, v, rfl⟩ | ⟨h', -⟩ | ⟨-, v, rfl⟩ := exec_cases hu
    · rfl
    · rfl
    · exact absurd h' hsta
    · rfl
  · rw [decodeFailure_of_step hl h]
    exact State.readByte_of_mem_eq rfl

end Sys2Proof.Machine

/-! ## Proofs of 20_memory.md: word writes, canonical memories, Indirect_Y and misuse (R53, R69, R70) -/

namespace Sys2Proof.Machine

/-- The high byte of a word has another address than the low byte, at 0xFFFF too. -/
theorem addr_ne_add_one (a : Addr) : a ≠ a + 1#16 := by
  bv_omega

/-- The two bytes of a written word (R53). -/
theorem State.storedBytes_writeWord (s : State) (a w : Addr) :
    (s.writeWord a w).readByte a = lowByte w ∧ (s.writeWord a w).readByte (a + 1#16) = highByte w ∧
    ∀ b, b ≠ a → b ≠ a + 1#16 → (s.writeWord a w).readByte b = s.readByte b := by
  refine ⟨?_, State.readByte_writeByte_same _ _ _, fun b hlo hhi => ?_⟩
  · rw [State.writeWord, State.readByte_writeByte_other _ _ (addr_ne_add_one a), State.readByte_writeByte_same]
  · rw [State.writeWord, State.readByte_writeByte_other _ _ hhi, State.readByte_writeByte_other _ _ hlo]

theorem State.readWord_eq_wordOf (s : State) (a : Addr) :
    s.readWord a = wordOf (s.readByte a) (s.readByte (a + 1#16)) :=
  rfl

theorem State.readWord_writeWord (s : State) (a w : Addr) : (s.writeWord a w).readWord a = w := by
  obtain ⟨hlo, hhi, -⟩ := s.storedBytes_writeWord a w
  rw [State.readWord_eq_wordOf, hlo, hhi, wordOf_low_high]

/-- Settles O22: the two bytes are stored at different addresses, and together are the word. -/
theorem wordWriteReadsBack : Obligations.WordWriteReadsBack := fun s a w =>
  ⟨s.readWord_writeWord a w, s.storedBytes_writeWord a w⟩

/-- In the canonical form the entries of a memory are what it answers by address. -/
theorem Memory.mem_iff_find {m : Memory} (h : m.Pairwise fun c d => c.1 < d.1) (a : Nat) (v : Byte) :
    (a, v) ∈ m ↔ m.find a = some v := by
  induction m with
  | nil => simp [Memory.find]
  | cons c m ih =>
    obtain ⟨hc, hm⟩ := List.pairwise_cons.1 h
    by_cases ha : c.1 = a
    · have hnot : (a, v) ∉ m := fun hmem => absurd (hc _ hmem) (by simp [ha])
      simp [Memory.find, ha, hnot, Prod.ext_iff, eq_comm]
    · have hne : (a, v) ≠ c := fun he => ha (he ▸ rfl)
      simp [Memory.find, ha, hne, ih hm]

theorem Memory.nodup_of_wf {m : Memory} (h : m.wf) : m.Nodup :=
  h.1.imp fun hlt => ne_of_apply_ne Prod.fst hlt.ne

/-- Settles O23: memories that answer alike have the same entries, and strictly rising addresses fix their order. -/
theorem canonicalMemoriesAreDeterminedByTheirBytes : Obligations.CanonicalMemoriesAreDeterminedByTheirBytes := by
  intro m n hm hn h
  have hentries : ∀ c, c ∈ m ↔ c ∈ n := fun c => by
    rw [Memory.mem_iff_find hm.1, Memory.mem_iff_find hn.1, h]
  refine List.Perm.eq_of_pairwise (fun c d _ _ hcd hdc => absurd hcd (lt_asymm hdc)) hm.1 hn.1 ?_
  exact (List.perm_ext_iff_of_nodup (Memory.nodup_of_wf hm) (Memory.nodup_of_wf hn)).2 hentries

/-- Settles O27: the operand byte is the pointer, and Y is added to the word it holds. -/
theorem resolverComputesIndirectY : Obligations.ResolverComputesIndirectY := by
  intro m pc x y
  refine ⟨_, zext16 (m.read pc), zext16 (m.read pc + 1#8), rfl, ?_, ?_, ?_⟩
  · rw [zext16_toNat]
  · rw [zext16_toNat, zext16_toNat, BitVec.toNat_add, BitVec.toNat_ofNat]
  · rw [eaIndirectY, BitVec.toNat_add, zeroPagePointer_toNat, zext16_toNat]

/-- Below 0xFF the next byte's address is the next address. -/
theorem zext16_add_one {b : Byte} (h : b ≠ 0xFF#8) : zext16 (b + 1#8) = zext16 b + 1#16 := by
  unfold zext16
  bv_omega

/-- Settles O28: below 0xFF both readings take the high byte at the next address. -/
theorem indirectYPointerWrapMattersOnlyAtTopOfPageZero :
    Obligations.IndirectYPointerWrapMattersOnlyAtTopOfPageZero := by
  intro m base y h
  rw [eaIndirectY, zeroPagePointer, zext16_add_one h, Memory.readWord]

/-- A handler that resolves NoneAddressing raises misuse (R70). -/
theorem runHandler_of_noneAddressing {r : Row} (hr : r.mnemonic = .lda ∨ r.mnemonic = .sta)
    (hmode : r.mode = .noneAddressing) (op : Byte) (s : State) : runHandler r op s = .raised (s.resolverMisuse op) := by
  obtain hlda | hsta := hr
  · simp only [runHandler, hlda, hmode, resolve]
  · simp only [runHandler, hsta, hmode, resolve]

/-- Settles O29: the handler raises misuse with PC at pcb; a row of the block's table is well formed. -/
theorem resolvingNoneAddressingIsMisuse : Obligations.ResolvingNoneAddressingIsMisuse := by
  refine ⟨fun table r s hl hr hmode => ?_, fun op r hl hr hmode => ?_⟩
  · simp only [engineStep, hl, runHandler_of_noneAddressing hr hmode]
    rfl
  · have hwf := opcodeTable_wellFormed r (lookup_some hl).1
    obtain hlda | hsta := hr
    · simp [Row.wellFormed, Row.referencesMemory, hlda, hmode] at hwf
    · simp [Row.wellFormed, Row.referencesMemory, hsta, hmode] at hwf

end Sys2Proof.Machine

/-! ## Proofs of 40_load.md to 43_break.md: every form completes, and the remaining steps from memory (R130 to R180) -/

namespace Sys2Proof.Machine

/-- Settles O30: each form loads the byte at its address, or its operand, into A. -/
theorem everyLoadFormCompletes : Obligations.EveryLoadFormCompletes := fun s =>
  ⟨fun _ => ⟨_, rfl, loadEffect_loadAccumulator s _, rfl⟩, fun _ => ⟨_, rfl, loadEffect_loadAccumulator s _, rfl⟩,
    fun _ => ⟨_, rfl, loadEffect_loadAccumulator s _, rfl⟩, fun _ => ⟨_, rfl, loadEffect_loadAccumulator s _, rfl⟩,
    fun _ => ⟨_, rfl, loadEffect_loadAccumulator s _, rfl⟩, fun _ => ⟨_, rfl, loadEffect_loadAccumulator s _, rfl⟩,
    fun _ => ⟨_, rfl, loadEffect_loadAccumulator s _, rfl⟩, fun _ => ⟨_, rfl, loadEffect_loadAccumulator s _, rfl⟩⟩

/-- Storing A has the effect and the frame of R150. -/
theorem storeEffect_storeTo (s : State) (ea : Addr) : StoreEffect ea s (s.storeTo ea) :=
  ⟨s.storedByte_writeByte ea s.a, s.storeTo_a ea, s.storeTo_x ea, s.storeTo_y ea, s.storeTo_p ea, s.storeTo_runState ea⟩

/-- Settles O31: each form stores A at its address. -/
theorem everyStoreFormCompletes : Obligations.EveryStoreFormCompletes := fun s =>
  ⟨fun _ => ⟨_, rfl, storeEffect_storeTo s _, rfl⟩, fun _ => ⟨_, rfl, storeEffect_storeTo s _, rfl⟩,
    fun _ => ⟨_, rfl, storeEffect_storeTo s _, rfl⟩, fun _ => ⟨_, rfl, storeEffect_storeTo s _, rfl⟩,
    fun _ => ⟨_, rfl, storeEffect_storeTo s _, rfl⟩, fun _ => ⟨_, rfl, storeEffect_storeTo s _, rfl⟩,
    fun _ => ⟨_, rfl, storeEffect_storeTo s _, rfl⟩⟩

/-- Settles O32: TAX writes A to X, INX the sum modulo 256. -/
theorem transferAndIncrementComplete : Obligations.TransferAndIncrementComplete := fun s =>
  ⟨⟨_, rfl, indexEffect_loadX s s.a, rfl⟩,
    ⟨_, s.x + 1#8, rfl, indexEffect_loadX s (s.x + 1#8), BitVec.toNat_add s.x 1#8, rfl⟩⟩

/-- Settles O33: BRK's meaning is `endRun`, which writes run_state. -/
theorem breakCompletes : Obligations.BreakCompletes := fun _ => rfl

/-- Settles O37: the resolver's pointer is the operand byte, and Y is added to the word it holds. -/
theorem loadIndirectYRuns : Obligations.LoadIndirectYRuns :=
  opcodeLoads_of_lookup rfl fun _ => rfl

/-- A store's effect says nothing of PC, so moving PC before and after the store keeps it. -/
theorem StoreEffect.setPc {ea : Addr} {s t : State} {pc : Addr} (h : StoreEffect ea (s.setPc pc) t) (target : Addr) :
    StoreEffect ea s (t.setPc target) :=
  h

/-- A running step over a STA row stores A at the address the resolver finds at pcb, and PC moves on by the row's length. -/
theorem step_of_sta_row {s : State} {r : Row} {ea : Addr} (hs : s.runState = .running)
    (hl : lookup (s.readByte s.pc) = some r) (hr : r.mnemonic = .sta)
    (hea : resolve r.mode s.mem (s.pc + 1#16) s.x s.y = some ea) :
    ∃ t, step s = .next t ∧ StoreEffect ea s t ∧ t.pc = s.pc + BitVec.ofNat 16 r.len := by
  have hhandler : runHandler r (s.readByte s.pc) s.atPcb = .done (s.atPcb.storeTo ea) := by
    simp [runHandler, hr, hea]
  exact ⟨_, step_of_row hs hl hhandler, (storeEffect_storeTo s.atPcb ea).setPc _, State.setPc_pc _ _⟩

/-- An opcode whose row is a STA stores at the address the resolver finds at pcb. -/
theorem opcodeStores_of_lookup {op : Byte} {len : Nat} {format : Format} {mode : Mode} {ea : State → Addr}
    (hl : lookup op = some ⟨op, .sta, len, format, mode⟩)
    (hea : ∀ s : State, resolve mode s.mem (s.pc + 1#16) s.x s.y = some (ea s)) : OpcodeStores op len ea :=
  fun s hs hop => step_of_sta_row hs (hop ▸ hl) rfl (hea s)

/-- Settles O38: these modes compute their address from the byte at pcb, the operand byte. -/
theorem storeZeroPageRuns : Obligations.StoreZeroPageRuns :=
  ⟨opcodeStores_of_lookup rfl fun _ => rfl, opcodeStores_of_lookup rfl fun _ => rfl⟩

/-- Settles O39: these modes compute their address from the word at pcb, the operand word. -/
theorem storeAbsoluteRuns : Obligations.StoreAbsoluteRuns := by
  refine ⟨opcodeStores_of_lookup rfl fun s => ?absolute, opcodeStores_of_lookup rfl fun s => ?absoluteX,
    opcodeStores_of_lookup rfl fun s => ?absoluteY⟩
  case absolute => rw [resolve, State.readWord_pcb, eaAbsolute]
  case absoluteX => rw [resolve, State.readWord_pcb, eaAbsoluteIndexed, zext16]
  case absoluteY => rw [resolve, State.readWord_pcb, eaAbsoluteIndexed, zext16]

/-- Settles O40: the resolver reads both pointer bytes in page zero, X added before and Y after. -/
theorem storeIndirectRuns : Obligations.StoreIndirectRuns :=
  ⟨opcodeStores_of_lookup rfl fun _ => rfl, opcodeStores_of_lookup rfl fun _ => rfl⟩

/-- The step on 0x00: PC one on, then the halt (R180). -/
theorem step_of_brk {s : State} (hs : s.runState = .running) (hop : s.readByte s.pc = 0x00#8) :
    step s = .next (s.atPcb.endRun .haltedNormal) := by
  have hl : lookup (s.readByte s.pc) = some ⟨0x00#8, .brk, 1, .implied, .noneAddressing⟩ := by rw [hop]; rfl
  exact step_of_row hs hl rfl

/-- Settles O18: the address is resolved in the state before the store, and the next step fetches the stored byte. -/
theorem storeIsSeenByNextFetch : Obligations.StoreIsSeenByNextFetch := by
  intro s i rest ea hs hd hsta hea
  obtain ⟨r, hl, hassemble⟩ := decode_ok_row hd
  obtain ⟨hmnemonic, hmode⟩ := assemble_shape hassemble
  obtain ⟨t, hstep, heffect, hpc⟩ := step_of_sta_row hs hl (hmnemonic ▸ hsta) (hmode ▸ hea)
  refine ⟨t, hstep, heffect, ?_, fun htarget hzero => ?_⟩
  · rw [hpc, len_of_lookup hl, Instr.len, hmode]
  · obtain ⟨⟨hstored, -⟩, -, -, -, -, hrun⟩ := heffect
    rw [htarget, hzero] at hstored
    exact ⟨_, step_of_brk (hrun.trans hs) hstored, rfl, rfl⟩

end Sys2Proof.Machine

/-! ## Proofs of 70_reset_and_hazards.md: the host's operations (R240 to R246, R77) -/

namespace Sys2Proof.Machine

/-- A stopped engine lets a host operation through (D21). -/
theorem State.hostMove_of_stopped {s : State} (hs : s.runState ≠ .running) (o : Host.Outcome State Fault Refusal) :
    s.hostMove o = o := by
  cases hr : s.runState with
  | running => exact absurd hr hs
  | _ => simp only [State.hostMove, hr]

/-- A running engine lets none through (R245). -/
theorem State.hostMove_of_running {s : State} (hs : s.runState = .running) (o : Host.Outcome State Fault Refusal) :
    s.hostMove o = .refused .hostWhileRunning := by
  simp only [State.hostMove, hs]

theorem hostReset_of_stopped {s : State} (hs : s.runState ≠ .running) : hostReset s = .next s.afterReset :=
  State.hostMove_of_stopped hs _

/-- The word in the reset vector (R36). -/
theorem State.readWord_resetVector (s : State) :
    s.readWord Config.resetVector = s.readByte 0xFFFD#16 ++ s.readByte 0xFFFC#16 :=
  rfl

/-- Settles O44: the field lemmas of `afterReset` give each register and the run state. -/
theorem resetSetsRegistersAndPc : Obligations.ResetSetsRegistersAndPc := fun s hs =>
  ⟨s.afterReset, hostReset_of_stopped hs, s.afterReset_a, s.afterReset_x, s.afterReset_y, s.afterReset_p,
    s.afterReset_pc.trans s.readWord_resetVector, s.afterReset_runState, State.readByte_of_mem_eq s.afterReset_mem⟩

/-- Settles O45: the two states differ in PC at most, which is then the vector's word. -/
theorem namedResetStateIsAResult : Obligations.NamedResetStateIsAResult := by
  intro s hs hvector
  have hpc : s.readWord Config.resetVector = 0x8000#16 := hvector
  rw [hostReset_of_stopped hs, State.afterReset, hpc]
  rfl

/-- Settles O46: what `reset()` leaves is stopped, and a second reset reads the same vector. -/
theorem resetIsIdempotent : Obligations.ResetIsIdempotent := by
  intro s t h
  obtain rfl := afterReset_of_hostReset h
  exact hostReset_of_stopped (by simp)

/-- `load_program` within the length limit (R242). -/
theorem hostLoadProgram_of_short {s : State} {bytes : List Byte} (hs : s.runState ≠ .running)
    (hlen : bytes.length ≤ 0x8000) : hostLoadProgram bytes s = .next (s.afterLoad bytes) :=
  (State.hostMove_of_stopped hs _).trans (if_pos hlen)

/-- The loader's copy read back: an address whose distance from `a`, modulo 65536, is inside the bytes holds that byte, and
every other keeps its own. -/
theorem State.readByte_writeBytes (s : State) (a b : Addr) {bytes : List Byte} (hlen : bytes.length ≤ 65536) :
    (s.writeBytes a bytes).readByte b = bytes[(b - a).toNat]?.getD (s.readByte b) := by
  induction bytes generalizing s a with
  | nil => rfl
  | cons v vs ih =>
    rw [List.length_cons] at hlen
    rw [State.writeBytes, ih _ _ (by omega)]
    by_cases hb : b = a
    · have hlast : (b - (a + 1#16)).toNat = 65535 := by subst hb; bv_omega
      have hfirst : (b - a).toNat = 0 := by subst hb; bv_omega
      rw [hlast, hfirst, List.getElem?_eq_none (by omega), hb, State.readByte_writeByte_same]
      rfl
    · have hnext : (b - a).toNat = (b - (a + 1#16)).toNat + 1 := by bv_omega
      rw [hnext, List.getElem?_cons_succ, State.readByte_writeByte_other _ _ hb]

/-- Memory after `load_program` of at most 0x8000 bytes: the vector, and the program from 0x8000 up (R242). -/
theorem State.readByte_afterLoad (s : State) {bytes : List Byte} (hlen : bytes.length ≤ 0x8000) :
    (s.afterLoad bytes).readByte 0xFFFC#16 = 0x00#8 ∧ (s.afterLoad bytes).readByte 0xFFFD#16 = 0x80#8 ∧
    ∀ a : Addr, a ≠ 0xFFFC#16 → a ≠ 0xFFFD#16 → (s.afterLoad bytes).readByte a =
      (if 0x8000 ≤ a.toNat then bytes[a.toNat - 0x8000]?.getD (s.readByte a) else s.readByte a) := by
  obtain ⟨hlo, hhi, hother⟩ :=
    (s.writeBytes Config.origin bytes).storedBytes_writeWord Config.resetVector Config.origin
  refine ⟨hlo, hhi, fun a hlo' hhi' => ?_⟩
  rw [State.afterLoad, hother a hlo' hhi', State.readByte_writeBytes _ _ _ (by omega)]
  split
  case isTrue h =>
    have hoffset : (a - Config.origin).toNat = a.toNat - 0x8000 := by unfold Config.origin; bv_omega
    rw [hoffset]
  case isFalse h =>
    have hoffset : 0x8000 ≤ (a - Config.origin).toNat := by unfold Config.origin; bv_omega
    rw [List.getElem?_eq_none (by omega), Option.getD_none]

/-- Settles O47: over the limit the load is refused, within it the bytes are those of `readByte_afterLoad`. -/
theorem loadProgramWritesBytesAndVector : Obligations.LoadProgramWritesBytesAndVector := by
  refine fun s bytes hs => ⟨fun hlong => ?_, fun hshort => ?_⟩
  · exact (State.hostMove_of_stopped hs _).trans (if_neg (Nat.not_le.2 hlong))
  · obtain ⟨hlo, hhi, hother⟩ := s.readByte_afterLoad hshort
    exact ⟨_, hostLoadProgram_of_short hs hshort, hlo, hhi, hother, s.afterLoad_a bytes, s.afterLoad_x bytes,
      s.afterLoad_y bytes, s.afterLoad_p bytes, s.afterLoad_pc bytes, s.afterLoad_runState bytes⟩

/-- The start of `run()`, case by case of run_state (R244). -/
theorem hostRun_eq_next_iff {s t : State} :
    hostRun s = .next t ↔ s.runState ≠ .running ∧ ¬ s.BeforeFirstReset ∧ t = s.endRun .running := by
  rw [State.BeforeFirstReset]
  cases hr : s.runState with
  | idle since => cases since <;> simp [hostRun, hr, eq_comm]
  | _ => simp [hostRun, hr, eq_comm]

theorem hostRun_of_stopped {s : State} (hs : s.runState ≠ .running) (hreset : ¬ s.BeforeFirstReset) :
    hostRun s = .next (s.endRun .running) :=
  hostRun_eq_next_iff.2 ⟨hs, hreset, rfl⟩

theorem hostRun_of_beforeFirstReset {s : State} (h : s.BeforeFirstReset) :
    hostRun s = .refused .noResetSincePowerOn := by
  rw [State.BeforeFirstReset] at h
  simp only [hostRun, h]

/-- Settles O48: of the run states that `run()` meets, only Idle since power-on refuses. -/
theorem runStartsFromCurrentState : Obligations.RunStartsFromCurrentState :=
  ⟨fun _ => hostRun_of_beforeFirstReset, fun _ => hostRun_of_stopped⟩

/-- Settles O49: every operation begins with the guard; `load_and_run` with that of `load_program`. -/
theorem hostHasNoMoveWhileRunning : Obligations.HostHasNoMoveWhileRunning := by
  refine fun s hs => ⟨fun op => ?_, fun a => ⟨if_pos hs, if_pos hs⟩⟩
  cases op with
  | reset => exact State.hostMove_of_running hs _
  | loadProgram bytes => exact State.hostMove_of_running hs _
  | loadAndRun bytes resetFlag =>
    have hload : hostLoadProgram bytes s = .refused .hostWhileRunning := State.hostMove_of_running hs _
    rw [hostApply, hostLoadAndRun, hload, andThen]
  | run => simp only [hostApply, hostRun, hs]
  | writeByte a v => exact State.hostMove_of_running hs _
  | writeWord a w => exact State.hostMove_of_running hs _

theorem hostReadByte_of_stopped {s : State} (hs : s.runState ≠ .running) (a : Addr) :
    hostReadByte a s = .ok (s.readByte a) :=
  if_neg hs

theorem hostReadWord_of_stopped {s : State} (hs : s.runState ≠ .running) (a : Addr) :
    hostReadWord a s = .ok (s.readWord a) :=
  if_neg hs

/-- Settles O50: in a stopped engine the accessors are the bus operations, after which it is still stopped. -/
theorem hostAccessorsReadAndWriteMemory : Obligations.HostAccessorsReadAndWriteMemory := by
  intro s a w v hs
  obtain ⟨-, -, hother⟩ := s.storedBytes_writeWord a w
  refine ⟨hostReadByte_of_stopped hs a, hostReadWord_of_stopped hs a,
    ⟨s.writeByte a v, State.hostMove_of_stopped hs _, s.storedByte_writeByte a v, ?_, rfl⟩,
    ⟨s.writeWord a w, State.hostMove_of_stopped hs _, ?_, rfl, hother⟩⟩
  · rw [hostReadByte_of_stopped (s := s.writeByte a v) hs, State.readByte_writeByte_same]
  · rw [hostReadWord_of_stopped (s := s.writeWord a w) hs, State.readWord_writeWord]

/-- Right after `load_program` the vector holds the origin, whatever the program's length up to the limit (D13). -/
theorem State.readWord_resetVector_afterLoad (s : State) (bytes : List Byte) :
    (s.afterLoad bytes).readWord Config.resetVector = Config.origin :=
  State.readWord_writeWord _ _ _

/-- `load_and_run` within the length limit is reset, where asked for, and `run()` on the loaded state (R243). -/
theorem hostLoadAndRun_of_short {s : State} {bytes : List Byte} (hs : s.runState ≠ .running)
    (hlen : bytes.length ≤ 0x8000) (resetFlag : Bool) :
    hostLoadAndRun bytes resetFlag s =
      hostRun (if resetFlag then (s.afterLoad bytes).afterReset else s.afterLoad bytes) := by
  have hloaded : (s.afterLoad bytes).runState ≠ .running := by rwa [State.afterLoad_runState]
  rw [hostLoadAndRun, hostLoadProgram_of_short hs hlen]
  cases resetFlag
  · rfl
  · simp only [andThen, if_true, hostReset_of_stopped hloaded]

/-- Settles O51: the reset after the load reads the origin from the vector. -/
theorem loadAndRunStartsAtOrigin : Obligations.LoadAndRunStartsAtOrigin := by
  intro s bytes hs hlen
  refine ⟨(s.afterLoad bytes).afterReset.endRun .running, ?_, rfl, s.readWord_resetVector_afterLoad bytes, rfl,
    rfl, rfl, rfl⟩
  rw [hostLoadAndRun_of_short hs hlen, if_pos rfl]
  exact hostRun_of_stopped (by simp) (by simp [State.BeforeFirstReset])

/-- Settles O59: the load keeps registers, PC and run state, and `run()` starts from them or is refused by them. -/
theorem loadAndRunWithoutResetKeepsRegisters : Obligations.LoadAndRunWithoutResetKeepsRegisters := by
  intro s bytes hs hlen
  have hrun : hostLoadAndRun bytes false s = hostRun (s.afterLoad bytes) := hostLoadAndRun_of_short hs hlen false
  have hbefore : (s.afterLoad bytes).BeforeFirstReset ↔ s.BeforeFirstReset := by
    rw [State.BeforeFirstReset, State.BeforeFirstReset, State.afterLoad_runState]
  refine ⟨fun h => ?_, fun h => ?_⟩
  · rw [hrun, hostRun_of_beforeFirstReset (hbefore.2 h)]
  · have hloaded : (s.afterLoad bytes).runState ≠ .running := by rwa [State.afterLoad_runState]
    refine ⟨(s.afterLoad bytes).endRun .running, _, hostLoadProgram_of_short hs hlen, ?_, fun _ => rfl, rfl, ?_⟩
    · rw [hrun, hostRun_of_stopped hloaded (mt hbefore.1 h)]
    · exact ⟨s.afterLoad_a bytes, s.afterLoad_x bytes, s.afterLoad_y bytes, s.afterLoad_p bytes, s.afterLoad_pc bytes⟩

end Sys2Proof.Machine

/-! ## Proofs of 43_break.md and 60_exceptions.md: how a step ends a run, and the `run()` after it
(R102, R180, R202, R208) -/

namespace Sys2Proof.Machine

/-- Ending a run and starting it again with `run()` gives back the running state (D16). -/
theorem hostRun_endRun {s : State} {r : RunState} (hs : s.runState = .running) (hr : r ≠ .running)
    (hreset : r ≠ .idle .powerOn) : hostRun (s.endRun r) = .next s := by
  rw [hostRun_of_stopped (s := s.endRun r) hr hreset, State.endRun, State.endRun, ← hs]

/-- Settles O43: the step on 0x00 is PC one on and the halt, and `run()` undoes the halt. -/
theorem breakHaltsNormally : Obligations.BreakHaltsNormally := by
  intro s hs hop
  refine ⟨_, step_of_brk hs hop, rfl, rfl, rfl, rfl, rfl, rfl, fun _ => rfl, ?_⟩
  exact hostRun_endRun hs (by simp) (by simp)

/-- Settles O10: a decode failure is PC one on and the end of the run, and `run()` undoes the end. -/
theorem decodeFailureIsPrecise : Obligations.DecodeFailureIsPrecise := by
  intro s hs hl
  refine ⟨_, step_of_undefined hs hl, ?_, rfl, rfl, rfl, rfl, rfl, fun _ => rfl, ?_⟩
  · rw [State.decodeFailure_runState, State.atPcb_pc, BitVec.add_sub_cancel]
  · exact hostRun_endRun hs (by simp) (by simp)

end Sys2Proof.Machine

/-! ## Proofs of Safety.lean: the invariant, at reset and power-on, over steps and host operations (R20, R23, R26, R203) -/

namespace Sys2Proof.Machine

/-- Over a P without reserved bits the flag unit leaves one of three values, since a result that is 0 has bit 7 clear. -/
theorem updateFlags_of_legal {p : Byte} (hp : p = 0x00#8 ∨ p = 0x02#8 ∨ p = 0x80#8) (r : Byte) :
    updateFlags r p = 0x00#8 ∨ updateFlags r p = 0x02#8 ∨ updateFlags r p = 0x80#8 := by
  have hmask : p &&& 0x7D#8 = 0x00#8 := by obtain rfl | rfl | rfl := hp <;> decide
  rw [updateFlags, hmask]
  by_cases hr : r = 0x00#8
  · subst hr
    exact .inr (.inl (by decide))
  · rw [beq_eq_false_iff_ne.2 hr]
    cases r.getLsbD 7
    · exact .inl (by decide)
    · exact .inr (.inr (by decide))

/-- Settles O53: what a step writes keeps memory canonical, Y zero and P legal, and the ways it leaves run_state are none of
Faulted; a decode failure records what the invariant asks of it. -/
theorem stepKeepsInvariant : Obligations.StepKeepsInvariant := by
  intro s t hinv h
  have hstarted : ¬ s.BeforeFirstReset := by
    rw [State.BeforeFirstReset, (step_cases h).1]
    simp
  obtain ⟨hy, hmem, hp⟩ := step_writes h
  constructor
  case memory =>
    obtain hmem | ⟨ea, hmem⟩ := hmem
    · exact hmem ▸ hinv.memory
    · exact hmem ▸ Memory.wf_write hinv.memory ea s.a
  case notFaulted =>
    intro op pcb ht
    obtain ⟨-, hrun, -⟩ | ⟨-, hrun⟩ | ⟨-, -, hrun⟩ := step_runState_cases h <;> cases hrun.symm.trans ht
  case failInfo =>
    intro op at' ht
    obtain ⟨hop, hrun, hpc⟩ | ⟨-, hrun⟩ | ⟨-, -, hrun⟩ := step_runState_cases h <;> cases hrun.symm.trans ht
    exact ⟨lookup_none_iff_not_defined.2 hop, hpc⟩
  case indexY => exact fun _ => hy.trans (hinv.indexY hstarted)
  case status =>
    intro _
    obtain hp | ⟨r, hp⟩ := hp
    · exact hp ▸ hinv.status hstarted
    · exact hp ▸ updateFlags_of_legal (hinv.status hstarted) r

/-- `reset()` establishes the invariant over any canonical memory. -/
theorem State.inv_afterReset {s : State} (h : s.mem.wf) : s.afterReset.Inv where
  memory := h
  notFaulted := by simp
  failInfo := by simp
  indexY _ := rfl
  status _ := .inl rfl

/-- The empty memory is canonical. -/
theorem Memory.wf_nil : Memory.wf [] :=
  ⟨.nil, by simp⟩

/-- Settles O52: the reset state has zero registers, an empty memory and is Idle. -/
theorem resetStateMeetsInvariant : Obligations.ResetStateMeetsInvariant where
  memory := Memory.wf_nil
  notFaulted := by simp [State.reset]
  failInfo := by simp [State.reset]
  indexY _ := rfl
  status _ := .inl rfl

/-- Before the first reset the invariant asks nothing of the registers. -/
theorem State.inv_powerOn : State.powerOn.Inv where
  memory := Memory.wf_nil
  notFaulted := by simp [State.powerOn]
  failInfo := by simp [State.powerOn]
  indexY h := absurd rfl h
  status h := absurd rfl h

/-- Of memory the invariant asks the canonical form only. -/
theorem State.Inv.of_memory_changed {s t : State} (h : s.Inv) (hmem : t.mem.wf) (hy : t.y = s.y) (hp : t.p = s.p)
    (hpc : t.pc = s.pc) (hrun : t.runState = s.runState) : t.Inv where
  memory := hmem
  notFaulted op pcb := hrun ▸ h.notFaulted op pcb
  failInfo op at' ht := hpc ▸ h.failInfo op at' (hrun ▸ ht)
  indexY ht := hy.trans (h.indexY fun hs => ht (hrun.trans hs))
  status ht := hp ▸ h.status fun hs => ht (hrun.trans hs)

theorem State.Inv.writeByte {s : State} (h : s.Inv) (a : Addr) (v : Byte) : (s.writeByte a v).Inv :=
  h.of_memory_changed (State.wf_writeByte h.memory a v) rfl rfl rfl rfl

theorem State.Inv.writeWord {s : State} (h : s.Inv) (a w : Addr) : (s.writeWord a w).Inv :=
  h.of_memory_changed (State.wf_writeWord h.memory a w) rfl rfl rfl rfl

theorem State.Inv.afterLoad {s : State} (h : s.Inv) (bytes : List Byte) : (s.afterLoad bytes).Inv :=
  h.of_memory_changed (State.wf_afterLoad h.memory bytes) (s.afterLoad_y bytes) (s.afterLoad_p bytes)
    (s.afterLoad_pc bytes) (s.afterLoad_runState bytes)

/-- `run()`, refused before the first reset, keeps the invariant. -/
theorem State.Inv.hostRun {s t : State} (h : s.Inv) (hrun : hostRun s = .next t) : t.Inv := by
  obtain ⟨-, hstarted, rfl⟩ := hostRun_eq_next_iff.1 hrun
  exact ⟨h.memory, by simp, by simp, fun _ => h.indexY hstarted, fun _ => h.status hstarted⟩

theorem State.Inv.hostReset {s t : State} (h : s.Inv) (hreset : hostReset s = .next t) : t.Inv := by
  rw [afterReset_of_hostReset hreset]
  exact State.inv_afterReset h.memory

/-- What a `load_program` that is not refused leaves (R242). -/
theorem afterLoad_of_hostLoadProgram {s t : State} {bytes : List Byte} (h : hostLoadProgram bytes s = .next t) :
    t = s.afterLoad bytes := by
  obtain ⟨-, hload⟩ := State.hostMove_eq_next_iff.1 h
  split at hload <;> cases hload
  rfl

theorem State.Inv.hostLoadProgram {s t : State} {bytes : List Byte} (h : s.Inv)
    (hload : hostLoadProgram bytes s = .next t) : t.Inv := by
  rw [afterLoad_of_hostLoadProgram hload]
  exact h.afterLoad bytes

/-- An operation after another answers a state only where both do. -/
theorem andThen_eq_next_iff {o : Host.Outcome State Fault Refusal} {f : State → Host.Outcome State Fault Refusal}
    {t : State} : andThen o f = .next t ↔ ∃ s, o = .next s ∧ f s = .next t := by
  cases o <;> simp [andThen]

/-- Settles O54: `load_and_run` is made of operations that keep the invariant. -/
theorem hostOperationKeepsInvariant : Obligations.HostOperationKeepsInvariant := by
  intro op s t hinv h
  cases op with
  | reset => exact hinv.hostReset h
  | loadProgram bytes => exact hinv.hostLoadProgram h
  | loadAndRun bytes resetFlag =>
    obtain ⟨u, hload, hrest⟩ := andThen_eq_next_iff.1 h
    obtain ⟨v, hreset, hrun⟩ := andThen_eq_next_iff.1 hrest
    have hu : u.Inv := hinv.hostLoadProgram hload
    have hv : v.Inv := by
      cases resetFlag with
      | true => exact hu.hostReset hreset
      | false => cases hreset; exact hu
    exact hv.hostRun hrun
  | run => exact hinv.hostRun h
  | writeByte a v =>
    obtain ⟨-, hwrite⟩ := State.hostMove_eq_next_iff.1 h
    cases hwrite
    exact hinv.writeByte a v
  | writeWord a w =>
    obtain ⟨-, hwrite⟩ := State.hostMove_eq_next_iff.1 h
    cases hwrite
    exact hinv.writeWord a w

/-- The invariant holds in every state the block can be in. -/
theorem Reachable.inv {s : State} (h : Reachable s) : s.Inv := by
  induction h with
  | powerOn => exact State.inv_powerOn
  | host op _ happly ih => exact hostOperationKeepsInvariant op _ _ ih happly
  | engine _ hstep ih => exact stepKeepsInvariant _ _ ih hstep

/-- Settles O55: these are clauses of the invariant. -/
theorem reachableStatesAreNeverFaulted : Obligations.ReachableStatesAreNeverFaulted := fun _ h =>
  ⟨h.inv.notFaulted, h.inv.memory, fun hstarted => ⟨h.inv.indexY hstarted, h.inv.status hstarted⟩⟩

end Sys2Proof.Machine

/-! ## Proofs of 60_exceptions.md section 9: how a run ends, and one that does not (R108, R201, R217, R244) -/

namespace Sys2Proof.Machine

theorem loopState_succ_of_step {s t : State} (h : step s = .next t) (k : Nat) :
    loopState (k + 1) s = loopState k t := by
  simp only [loopState, h]

/-- Once the loop is left, nothing changes (R244). -/
theorem loopState_of_stopped {s : State} (hs : s.runState ≠ .running) (k : Nat) : loopState k s = s := by
  cases k with
  | zero => rfl
  | succ k =>
    cases h : step s with
    | next t => exact absurd (step_cases h).1 hs
    | fault r => simp only [loopState, h]
    | refused r => simp only [loopState, h]

/-- The loop after `j + k` rounds is the loop after `k` rounds from where `j` rounds left it. -/
theorem loopState_add (j k : Nat) (s : State) : loopState (j + k) s = loopState k (loopState j s) := by
  induction j generalizing s with
  | zero => rw [Nat.zero_add, loopState]
  | succ j ih =>
    by_cases hs : s.runState = .running
    · obtain ⟨t, ht⟩ := (engineStepsExactlyWhenRunning s).2 hs
      rw [Nat.succ_add, loopState_succ_of_step ht, loopState_succ_of_step ht, ih]
    · rw [loopState_of_stopped hs, loopState_of_stopped hs, loopState_of_stopped hs]

/-- Two looks at a loop that has been left, the second no earlier, see one state. -/
theorem loopState_eq_of_le {s : State} {j k : Nat} (hjk : j ≤ k) (hstopped : (loopState j s).runState ≠ .running) :
    loopState k s = loopState j s := by
  rw [← Nat.add_sub_cancel' hjk, loopState_add, loopState_of_stopped hstopped]

/-- Settles O56: of two ends the earlier one is never left; not to hang is to have stopped after some round. -/
theorem runHasOneEndOrHangs : Obligations.RunHasOneEndOrHangs := by
  refine fun s => ⟨?_, fun ⟨t, k, ht, hstopped⟩ hhangs => ?_, fun h => ?_⟩
  · rintro _ _ ⟨j, rfl, hj⟩ ⟨k, rfl, hk⟩
    obtain hjk | hkj := Nat.le_total j k
    · exact (loopState_eq_of_le hjk hj).symm
    · exact loopState_eq_of_le hkj hk
  · exact hstopped (ht ▸ hhangs k)
  · obtain ⟨k, hk⟩ := not_forall.1 h
    exact ⟨_, k, rfl, hk⟩

/-- A run that ends has a last step, from a running state to its end. -/
theorem last_step_of_completes {s t : State} (hs : s.runState = .running) (h : Completes s t) :
    ∃ r, step r = .next t ∧ t.runState ≠ .running := by
  obtain ⟨k, hk, hstopped⟩ := h
  induction k generalizing s with
  | zero => exact absurd (hk ▸ hs) hstopped
  | succ k ih =>
    obtain ⟨u, hu⟩ := (engineStepsExactlyWhenRunning s).2 hs
    rw [loopState_succ_of_step hu] at hk
    by_cases hrun : u.runState = .running
    · exact ih hrun hk
    · rw [loopState_of_stopped hrun] at hk
      exact ⟨s, hk ▸ hu, hstopped⟩

/-- Settles O57: the last step leaves Running by BRK or by a decode failure. -/
theorem completedRunIsBreakOrDecodeFailure : Obligations.CompletedRunIsBreakOrDecodeFailure := by
  intro s t hs h
  obtain ⟨r, hstep, hstopped⟩ := last_step_of_completes hs h
  obtain ⟨hop, hrun, hpc⟩ | ⟨-, hrun⟩ | ⟨-, -, hrun⟩ := step_runState_cases hstep
  · exact .inr ⟨.inl ⟨_, _, hrun⟩, by rw [hrun]; rfl, _, _, hrun, hop, hpc⟩
  · exact .inl ⟨hrun, by rw [hrun]; rfl⟩
  · exact absurd hrun hstopped

/-- The step on 0xE8: one more in X, PC one on, and the frame of R171. -/
theorem step_of_inx {s : State} (hs : s.runState = .running) (hop : s.readByte s.pc = 0xE8#8) :
    ∃ t, step s = .next t ∧ IndexEffect (s.x + 1#8) s t ∧ t.pc = s.pc + 1#16 := by
  have hl : lookup (s.readByte s.pc) = some ⟨0xE8#8, .inx, 1, .implied, .noneAddressing⟩ := by rw [hop]; rfl
  exact step_of_row_loadX hs hl rfl rfl

/-- Every round of a run in a memory full of INX is a step on 0xE8, which leaves memory full of INX. -/
theorem loopState_of_full_of_inx (k : Nat) {s : State} (hs : s.runState = .running) (hfull : ∀ a, s.readByte a = 0xE8#8) :
    (loopState k s).runState = .running ∧ (loopState k s).pc = s.pc + BitVec.ofNat 16 k ∧
    (loopState k s).x = s.x + BitVec.ofNat 8 k := by
  induction k generalizing s with
  | zero => exact ⟨hs, (BitVec.add_zero _).symm, (BitVec.add_zero _).symm⟩
  | succ k ih =>
    obtain ⟨t, hstep, ⟨hx, -, -, -, hmem, hrun⟩, hpc⟩ := step_of_inx hs (hfull s.pc)
    obtain ⟨hrunk, hpck, hxk⟩ := ih (hrun.trans hs) fun a => (hmem a).trans (hfull a)
    rw [loopState_succ_of_step hstep, hpck, hxk, hpc, hx, BitVec.add_assoc, BitVec.add_assoc]
    exact ⟨hrunk, by rw [BitVec.ofNat_add, BitVec.add_comm 1#16], by rw [BitVec.ofNat_add, BitVec.add_comm 1#8]⟩

/-- Settles O58: the loop is Running after every round, with PC and X as many on. -/
theorem memoryFullOfIncrementsHangs : Obligations.MemoryFullOfIncrementsHangs := fun _ hs hfull =>
  ⟨fun k => (loopState_of_full_of_inx k hs hfull).1, fun k => (loopState_of_full_of_inx k hs hfull).2⟩

end Sys2Proof.Machine
